-- ==== Sys2Proof/Word.lean ====
section
/-! DEFINITION. Word.lean: the one word of the block, the 8-bit byte (00_scope R8). -/

namespace Sys2Proof

/-- A wire byte, a channel value and a Channel Buffer cell are all 8 bits, unsigned (00_scope R8,
R11). Bit `i` of `v` is `v.getLsbD i`. -/
abbrev Byte := BitVec 8

end Sys2Proof
end

