-- ==== Sys2Proof/Config.lean ====
section
/-! DEFINITION. Config.lean: the two implementation parameters of the block (00_scope R5, R7), the
quantities derived from them (R6), and the two free values: the `BUFFER_INIT` of `State.reset` and the draws of an
open environment. -/

namespace Sys2Proof

/-- The parameters of a session. They stand in State as data no operation on the stream writes
(log 1), so a statement about every state is a statement about every `C` and every `BUFFER_INIT`. -/
structure Config where
  /-- `CHIP_COUNT`, symbol `C` (00_scope R5). -/
  chipCount : Nat
  /-- `BUFFER_INIT`, the content of the Channel Buffer at reset (00_scope R7). -/
  bufferInit : List Byte
deriving DecidableEq, Repr

/-- `N = 3 * C`, the number of channels and of buffer cells (00_scope R6). -/
def Config.channels (c : Config) : Nat := 3 * c.chipCount

/-- `F = 4 * C`, the number of bytes of a frame, the resync byte included (00_scope R6). -/
def Config.frameBytes (c : Config) : Nat := 4 * c.chipCount

/-- Cell `i` of the `BUFFER_INIT` that `State.reset` has. FREE VALUE: the spec leaves `BUFFER_INIT`
open and does not adopt zero (92_eei D6), so this constant has no body. DESIGN CHOICE, safe: log 3. -/
opaque Config.bufferInitCell : Nat → Byte

/-- What the environment does at its draw `n` once it is left open: `some b` delivers `b`, `none` leaves
the move to the loop. FREE VALUE: the spec fixes neither when bytes arrive nor which (93 U7, U10;
42_commit R181, R183), so this constant has no body. Log 18. -/
opaque Config.arrival : Nat → Option Byte

/-- The configuration of `State.reset`: one chip (DESIGN CHOICE, unsafe: log 2) and an open
`BUFFER_INIT` of its three cells (log 3). -/
def Config.standard : Config :=
  { chipCount := 1
    bufferInit := [Config.bufferInitCell 0, Config.bufferInitCell 1, Config.bufferInitCell 2] }

end Sys2Proof
end

