-- ==== Sys2Proof/Syntax.lean ====
section
/-! DEFINITION. Syntax.lean: the operations of the block, one constructor per row of
spec/opcode_table.json (30_encoding R81, R82). -/

namespace Sys2Proof

/-- The eleven operations. The six `consume…` constructors carry the received byte `b`; the five
interface operations carry the operands their rules give them. -/
inductive Instr where
  /-- CONSUME.RESYNC (41_decoder R140): `b` has bit 7 set. -/
  | consumeResync (b : Byte)
  /-- CONSUME.P0 (41_decoder R134): `b` has bit 7 clear, as in the next four. -/
  | consumeP0 (b : Byte)
  /-- CONSUME.P1 (41_decoder R135). -/
  | consumeP1 (b : Byte)
  /-- CONSUME.P2 (41_decoder R136). -/
  | consumeP2 (b : Byte)
  /-- CONSUME.P3 (41_decoder R137). -/
  | consumeP3 (b : Byte)
  /-- CONSUME.DROP (41_decoder R141). -/
  | consumeDrop (b : Byte)
  /-- ENCODE_FRAME (40_encoder R100): `v` is the `N` channel values in buffer order. -/
  | encodeFrame (v : List Byte)
  /-- ITERATION (42_commit R170). -/
  | iteration
  /-- SHOW (42_commit R173). -/
  | showBuffer
  /-- ENV_RX (42_commit R181). -/
  | envRx (b : Byte)
  /-- RESET (70_reset R230) with its `BUFFER_INIT`. -/
  | reset (init : List Byte)
deriving DecidableEq, Repr

end Sys2Proof
end

