-- ==== Sys2Proof/WellFormed.lean ====
section
/-! DEFINITION. WellFormed.lean: which configurations and which operands the spec admits. -/

namespace Sys2Proof

/-- Bit 7 of a byte, the field `M`: the byte is a resync marker (30_encoding R70, R71). -/
def isMarker (b : Byte) : Bool := b.getLsbD 7

/-- A configuration the spec admits: `C >= 1` (00_scope R5) and `BUFFER_INIT` a sequence of `N`
values (00_scope R7). -/
abbrev Config.Valid (c : Config) : Prop :=
  1 ≤ c.chipCount ∧ c.bufferInit.length = c.channels

/-- The operand checks: the marker bit of the row's pattern (30_encoding R81), the length of a frame's
input (40_encoder R103), and the length of `BUFFER_INIT` (00_scope R7). -/
def Instr.wf (c : Config) : Instr → Bool
  | .consumeResync b => isMarker b
  | .consumeP0 b => !isMarker b
  | .consumeP1 b => !isMarker b
  | .consumeP2 b => !isMarker b
  | .consumeP3 b => !isMarker b
  | .consumeDrop b => !isMarker b
  | .encodeFrame v => v.length == c.channels
  | .iteration => true
  | .showBuffer => true
  | .envRx _ => true
  | .reset init => init.length == c.channels

end Sys2Proof
end

