-- ==== Sys2Proof/Decode.lean ====
section
/-! DEFINITION. Decode.lean: from a received byte and the decoder's state condition to the operation
(30_encoding R81), and back from an operation to its byte. Decoding is total on the 256 bytes (R79);
only the absence of a byte is rejected. -/

namespace Sys2Proof

/-- `PHASE`, the position in a 4-byte group (10_state R23). -/
inductive Phase where
  | p0
  | p1
  | p2
  | p3
deriving DecidableEq, Repr

/-- `PHASE = BI mod 4` (10_state R23). -/
def phaseOf (bi : Nat) : Phase :=
  match bi % 4 with
  | 0 => .p0
  | 1 => .p1
  | 2 => .p2
  | _ => .p3

/-- The state condition that selects a payload byte's operation (30_encoding R81, R83): whether the
gate `CI < N` is open, and the phase. -/
structure Selector where
  gateOpen : Bool
  phase : Phase
deriving DecidableEq, Repr

/-- Why nothing is decoded. -/
inductive DecodeError where
  /-- There is no byte to decode; no byte value is ever rejected (30_encoding R79). -/
  | noByte
deriving DecidableEq, Repr

/-- The payload rows of the operation map (30_encoding R81). -/
def decodePayload (sel : Selector) (b : Byte) : Instr :=
  if sel.gateOpen then
    match sel.phase with
    | .p0 => .consumeP0 b
    | .p1 => .consumeP1 b
    | .p2 => .consumeP2 b
    | .p3 => .consumeP3 b
  else .consumeDrop b

/-- The operation map of 30_encoding R81: bit 7 selects the class (R71), then the gate and the phase
select the row. -/
def decodeByte (sel : Selector) (b : Byte) : Instr :=
  if isMarker b then .consumeResync b else decodePayload sel b

/-- One operation from the head of a stream, with the rest: every byte is one complete `CONSUME`
(30_encoding R83). -/
def decode (sel : Selector) : List Byte → Except DecodeError (Instr × List Byte)
  | [] => .error .noByte
  | b :: rest => .ok (decodeByte sel b, rest)

/-- The byte of a `1xxxxxxx` row: the fixed bit 7, then bits 6:0 of the operand (30_encoding R70). -/
def markerRow (b : Byte) : Byte := (1#1 ++ b.extractLsb' 0 7 : BitVec 8)

/-- The byte of a `0xxxxxxx` row. -/
def payloadRow (b : Byte) : Byte := (0#1 ++ b.extractLsb' 0 7 : BitVec 8)

/-- The wire byte of an operation, from the table's patterns; `none` for the interface operations,
which no byte pattern selects (30_encoding R82). -/
def encode : Instr → Option Byte
  | .consumeResync b => some (markerRow b)
  | .consumeP0 b => some (payloadRow b)
  | .consumeP1 b => some (payloadRow b)
  | .consumeP2 b => some (payloadRow b)
  | .consumeP3 b => some (payloadRow b)
  | .consumeDrop b => some (payloadRow b)
  | .encodeFrame _ => none
  | .iteration => none
  | .showBuffer => none
  | .envRx _ => none
  | .reset _ => none

/-- The state condition of an operation's row (30_encoding R81). -/
def rowCondition (sel : Selector) : Instr → Bool
  | .consumeResync _ => true
  | .consumeP0 _ => sel.gateOpen && sel.phase == .p0
  | .consumeP1 _ => sel.gateOpen && sel.phase == .p1
  | .consumeP2 _ => sel.gateOpen && sel.phase == .p2
  | .consumeP3 _ => sel.gateOpen && sel.phase == .p3
  | .consumeDrop _ => !sel.gateOpen
  | .encodeFrame _ => true
  | .iteration => true
  | .showBuffer => true
  | .envRx _ => true
  | .reset _ => true

/-- The selector of a decoder that has just been reset: `CI = 0 < N`, phase 0 (70_reset R230). -/
def resetSelector : Selector := { gateOpen := true, phase := .p0 }

/-- The bits of a table word as the bytes of a stream. Every operation with an encoding is one byte
(30_encoding R83). -/
def tableBytes (nbits w : Nat) : List Byte :=
  if nbits = 8 then [BitVec.ofNat 8 w] else []

/-- The operation the decoder reads from a table word. The table's payload rows share one pattern, so
the word alone does not name a row; the state is the one a first byte meets, `resetSelector` (log 12). -/
def decodeTableWord (nbits w : Nat) : Option Instr :=
  match decode resetSelector (tableBytes nbits w) with
  | .ok (i, []) => some i
  | .ok (_, _ :: _) => none
  | .error .noByte => none

end Sys2Proof
end

