-- ==== Sys2Proof/Machine/State.lean ====
section
/-! DEFINITION. Machine/State.lean: the block's state (10_state R20), the reasons a step can stop, and
the state after reset (70_reset R230). -/

namespace Sys2Proof.Machine

/-- The Channel Buffer as a canonical list of the cells that differ from `BUFFER_INIT`: indices
strictly rising (20_memory R50, log 4). -/
abbrev Memory := List Host.Cell

/-- `LOOP`, the position of the consumption loop (10_state R28). -/
inductive LoopPos where
  | consuming
  | showing
deriving DecidableEq, Repr

/-- The Output Sink's call surface (42_commit R182). -/
inductive SinkCall where
  /-- `begin()`, the one-time initialisation (70_reset R233). -/
  | begin
  /-- `setColor(index, r, g, b)`. -/
  | setColor (index : Nat) (r g b : Byte)
  /-- `show()`, the flush of the whole buffer. -/
  | flush
deriving DecidableEq, Repr

/-- Whose move is next: the environment's draw (42_commit R181, 93 U7). The MODEL's own type: log 8. -/
inductive Turn where
  /-- The device loop makes one step. -/
  | loop
  /-- The environment performs `ENV_RX(b)` (42_commit R181). -/
  | envRx (b : Byte)
  /-- The host performs `ENCODE_FRAME(v)` (40_encoder R105). -/
  | encodeFrame (v : List Byte)
  /-- A session starts anew with this `BUFFER_INIT` (92_eei D12). -/
  | reset (init : List Byte)
deriving DecidableEq, Repr

/-- What comes once the listed turns are over, for ever: 42_commit R183 keeps runs in which bytes never
stop arriving. The MODEL's own type: log 18. -/
inductive Environment where
  /-- The turns come in this order again and again; with none, the loop runs alone. -/
  | repeating (turns : List Turn)
  /-- The environment is left open: each turn is the draw of that number, `Config.arrival`. -/
  | free (draw : Nat)
deriving DecidableEq, Repr

/-- The state. The first eight fields below `cfg` are the elements of 10_state R20; `cfg`, `inputs` and
`env` are what R20 calls parameters (logs 1, 8, 18); `sinkCalls` and `encOut` are output traces no operation
reads (logs 9, 10). -/
structure State where
  /-- `C` and `BUFFER_INIT` (00_scope R5, R7). -/
  cfg : Config
  /-- `CI`, channel_index (10_state R21). -/
  ci : Nat
  /-- `BI`, byte_index (10_state R22). -/
  bi : Nat
  /-- `PREV`, prev_byte; `none` is `⊥` (10_state R24, 00_scope R14). -/
  prev : Option Byte
  /-- `BUF` (10_state R25). -/
  buf : Memory
  /-- `COMMIT` (10_state R27). -/
  commit : Bool
  /-- `LOOP` (10_state R28). -/
  loop : LoopPos
  /-- `RXQ`, head first (10_state R29). -/
  rxq : List Byte
  /-- `DISPLAY`, oldest snapshot first (10_state R30). -/
  display : List (List Byte)
  /-- The calls made to the Output Sink, oldest first (42_commit R173, R182). -/
  sinkCalls : List SinkCall
  /-- The bytes `ENCODE_FRAME` has output, oldest first (40_encoder R105). -/
  encOut : List Byte
  /-- The listed turns still to come. -/
  inputs : List Turn
  /-- The turns after those of `inputs`. -/
  env : Environment
deriving DecidableEq, Repr

/-- Model faults (60_exceptions R208). The hardware itself raises none (R200). -/
inductive Fault where
  /-- `PREV` was read while it is `⊥`: a model fault (00_scope R14, 60_exceptions R208 (c)). Raised by CONSUME.P1, P2, P3 and so by ITERATION,
  only in states no run reaches (10_state R36). Safe: the model stops. -/
  | prevUnwritten
  /-- A Channel Buffer index outside `0 .. N-1`, which does not exist (20_memory R50). Raised by the
  accesses `memRead` and `memWrite`; no operation on a valid configuration makes such an access.
  Safe: the model stops. -/
  | noSuchCell
deriving DecidableEq, Repr

/-- Where the model has no meaning to give (60_exceptions R208). -/
inductive Refusal where
  /-- The operation has no meaning in this model yet. Raised by `exec`'s arms only; safe. -/
  | notModelled (mnemonic : String)
  /-- The configuration has `C = 0` (00_scope R5, 60_exceptions R208 (a)). Raised by every operation
  and by `step`; safe. -/
  | chipCountZero
  /-- `BUFFER_INIT` is not a sequence of `N` values (00_scope R7). Raised by every operation and by
  `step`; safe (log 14). -/
  | bufferInitLength
  /-- The input of `ENCODE_FRAME` is not `N` values (40_encoder R103, 60_exceptions R208 (b)). Raised by
  ENCODE_FRAME; safe. -/
  | frameLength
  /-- A named path of `CONSUME` was asked for in a state, or with a byte, that its row does not admit
  (30_encoding R81). Raised by the six CONSUME operations, never by `step`; safe (log 6). -/
  | notSelected
deriving DecidableEq, Repr

/-- What an operation answers. -/
abbrev Result := Host.Outcome State Fault Refusal

/-- The state after `RESET` and boot under the parameters `c` (70_reset R230, R233): every element at
the table's value, and the sink's `begin()` called once before the first iteration (10_state R28). -/
def State.boot (c : Config) : State :=
  { cfg := c
    ci := 0
    bi := 0
    prev := none
    buf := []
    commit := false
    loop := .consuming
    rxq := []
    display := []
    sinkCalls := [.begin]
    encOut := []
    inputs := []
    env := .repeating [] }

/-- The machine right after reset, with the parameters of `Config.standard` (logs 2, 3). -/
def State.reset : State := State.boot Config.standard

end Sys2Proof.Machine
end

