-- ==== Sys2Proof/Machine/Operands.lean ====
section
/-! DEFINITION. Machine/Operands.lean: how a channel is assembled from two received bytes
(41_decoder R130, R135 to R137) and how a chip's channels are cut into group bytes (40_encoder R100). -/

namespace Sys2Proof.Machine

/-- `trunc8(v) = v mod 256` on the naturals of 00_scope R12. -/
def trunc8 (n : Nat) : Byte := BitVec.ofNat 8 n

/-- Phase 1, the R channel: `trunc8((PREV << 2) | ((b >> 4) & 0x03))` (41_decoder R135). -/
def assembleR (prev b : Byte) : Byte :=
  trunc8 ((prev.toNat <<< 2) ||| ((b.toNat >>> 4) &&& 0x03))

/-- Phase 2, the G channel: `trunc8((PREV << 4) | ((b >> 2) & 0x0F))` (41_decoder R136). -/
def assembleG (prev b : Byte) : Byte :=
  trunc8 ((prev.toNat <<< 4) ||| ((b.toNat >>> 2) &&& 0x0F))

/-- Phase 3, the B channel: `trunc8((PREV << 6) | (b & 0x3F))` (41_decoder R137). -/
def assembleB (prev b : Byte) : Byte :=
  trunc8 ((prev.toNat <<< 6) ||| (b.toNat &&& 0x3F))

/-- `marker | (R >> 2)`: G0, `?0rrrrrr` (40_encoder R100, R101). -/
def groupByte0 (first : Bool) (r : Byte) : Byte :=
  trunc8 ((if first then 0x80 else 0x00) ||| (r.toNat >>> 2))

/-- `((R & 0x03) << 4) | (G >> 4)`: G1, `00rrgggg` (40_encoder R100). -/
def groupByte1 (r g : Byte) : Byte :=
  trunc8 (((r.toNat &&& 0x03) <<< 4) ||| (g.toNat >>> 4))

/-- `((G & 0x0F) << 2) | (B >> 6)`: G2, `00ggggbb` (40_encoder R100). -/
def groupByte2 (g b : Byte) : Byte :=
  trunc8 (((g.toNat &&& 0x0F) <<< 2) ||| (b.toNat >>> 6))

/-- `B & 0x3F`: G3, `00bbbbbb` (40_encoder R100). -/
def groupByte3 (b : Byte) : Byte :=
  trunc8 (b.toNat &&& 0x3F)

/-- The groups of the chips in ascending order; `first` marks the frame's first group, whose G0 carries
the marker (30_encoding R75). Values that do not make up a whole chip give no byte; `ENCODE_FRAME`
never has any, since it refuses a length other than `3C` (40_encoder R103). -/
def encodeGroups : Bool → List Byte → List Byte
  | first, r :: g :: b :: rest =>
    groupByte0 first r :: groupByte1 r g :: groupByte2 g b :: groupByte3 b :: encodeGroups false rest
  | _, _ => []

/-- The pure function `ENCODE_FRAME` (40_encoder R100, 10_state R33). -/
def frameOf (v : List Byte) : List Byte := encodeGroups true v

end Sys2Proof.Machine
end

