-- ==== Sys2Proof/Machine/Flags.lean ====
section
/-! DEFINITION. Machine/Flags.lean: the status signals `PHASE`, `FULL`, the gate and `COMMIT`
(10_state R23, R26, R27). -/

namespace Sys2Proof.Machine

/-- `FULL`, the derived status `CI = N` (10_state R26). -/
def isFull (s : State) : Bool := s.ci == s.cfg.channels

/-- The gate of step 2, `CI < N` (41_decoder R133). On the states a run reaches it is `not FULL`
(10_state R34); in a state with `CI > N` the gate is closed, as R131 has it (log 7). -/
def gateOpen (s : State) : Bool := decide (s.ci < s.cfg.channels)

/-- `PHASE` of the state (10_state R23). -/
def phase (s : State) : Phase := phaseOf s.bi

/-- The state condition the operation map reads (30_encoding R81). -/
def selector (s : State) : Selector := { gateOpen := gateOpen s, phase := phase s }

/-- `COMMIT <- b[7]` (41_decoder R139). -/
def setCommit (b : Byte) (s : State) : State := { s with commit := isMarker b }

end Sys2Proof.Machine
end

