-- ==== Sys2Proof/Machine/Ops.lean ====
section
/-! DEFINITION. Machine/Ops.lean: the named operations over the Channel Buffer and the cursor, the
shared `CONSUME(b)` (41_decoder R131), and the checks every operation makes. The block takes no
exception and returns from none (60_exceptions R200, R205, R206), so there is no entry operation. -/

namespace Sys2Proof.Machine

/-! ### Outcomes -/

/-- Go on with `k` from a next state; a fault or a refusal ends the operation. -/
def andThen (o : Result) (k : State → Result) : Result :=
  match o with
  | .next s => k s
  | .fault f => .fault f
  | .refused r => .refused r

/-- Change a next state; a fault or a refusal stays. -/
def mapNext (o : Result) (f : State → State) : Result := andThen o fun s => .next (f s)

/-! ### Configuration -/

/-- Why a configuration is refused, if it is (60_exceptions R208 (a), 00_scope R7; log 14). -/
def configRefusal (c : Config) : Option Refusal :=
  if c.chipCount = 0 then some .chipCountZero
  else if c.bufferInit.length = c.channels then none
  else some .bufferInitLength

/-- Run an operation under a configuration the spec admits. -/
def requireConfig (c : Config) (o : Result) : Result :=
  match configRefusal c with
  | some r => .refused r
  | none => o

/-- Run a named path of `CONSUME` where its row of the operation map holds (30_encoding R81; log 6). -/
def requireRow (row : Bool) (o : Result) : Result :=
  if row then o else .refused .notSelected

/-! ### The Channel Buffer (20_memory R50) -/

/-- The value listed for an index. -/
def cellLookup : Memory → Nat → Option Byte
  | [], _ => none
  | (a, v) :: rest, i => if a = i then some v else cellLookup rest i

/-- List a value for an index, keeping the indices rising. -/
def cellInsert : Memory → Nat → Byte → Memory
  | [], i, v => [(i, v)]
  | (a, w) :: rest, i, v =>
    if a < i then (a, w) :: cellInsert rest i v
    else if a = i then (i, v) :: rest
    else (i, v) :: (a, w) :: rest

/-- Unlist an index. -/
def cellErase : Memory → Nat → Memory
  | [], _ => []
  | (a, w) :: rest, i => if a = i then cellErase rest i else (a, w) :: cellErase rest i

/-- What a cell nothing has written reads as: its value in `BUFFER_INIT` (00_scope R7, 10_state R25). -/
def unlistedCell (c : Config) (i : Nat) : Option Byte := c.bufferInit[i]?

/-- `MemRead(i, 1)` (00_scope R13); `none` for an index that does not exist. -/
def memRead (c : Config) (m : Memory) (i : Nat) : Option Byte :=
  if i < c.channels then
    match cellLookup m i with
    | some v => some v
    | none => unlistedCell c i
  else none

/-- `MemWrite(i, 1, v)` (00_scope R13): overwrite cell `i` of the fixed-length buffer (20_memory R53);
`none` for an index that does not exist. -/
def memWrite (c : Config) (m : Memory) (i : Nat) (v : Byte) : Option Memory :=
  if i < c.channels then
    some (if unlistedCell c i = some v then cellErase m i else cellInsert m i v)
  else none

/-- The canonical form of a buffer: indices strictly rising and below `N`, and no entry equal to what
the unlisted cell reads as. -/
def Memory.wf (c : Config) (m : Memory) : Bool :=
  decide (m.Pairwise fun x y => x.1 < y.1) &&
    m.all fun x => decide (x.1 < c.channels) && decide (unlistedCell c x.1 ≠ some x.2)

/-- The cells of the given indices, in that order. -/
def readCells (c : Config) (m : Memory) : List Nat → Option (List Byte)
  | [] => some []
  | i :: is =>
    match memRead c m i, readCells c m is with
    | some v, some vs => some (v :: vs)
    | _, _ => none

/-- The whole buffer in ascending index order (20_memory R54). -/
def snapshot (s : State) : Option (List Byte) :=
  readCells s.cfg s.buf (List.range s.cfg.channels)

/-! ### The decoder cursor (10_state R21, R22, R24) -/

/-- Step 1 of `CONSUME`, resync detection (41_decoder R132). `PREV` and `BUF` are left alone. -/
def resyncCursor (b : Byte) (s : State) : State :=
  if isMarker b then { s with ci := 0, bi := 0 } else s

/-- Step 3 of `CONSUME`, the gated advance (41_decoder R138). -/
def advance (b : Byte) (s : State) : State :=
  { s with bi := s.bi + 1, prev := some b }

/-- `MemWrite(CI, 1, value(PREV)) ; CI <- CI + 1` (41_decoder R131). A read of `PREV` while it is `⊥` is
a model fault: the spec's own stop (00_scope R14, 60_exceptions R208 (c), 92_eei D7, 93 U1). -/
def completeChannel (value : Byte → Byte) (s : State) : Result :=
  match s.prev with
  | none => .fault .prevUnwritten
  | some p =>
    match memWrite s.cfg s.buf s.ci (value p) with
    | none => .fault .noSuchCell
    | some m => .next { s with buf := m, ci := s.ci + 1 }

/-- The case of step 2 (41_decoder R131). -/
def phaseAction (b : Byte) (s : State) : Result :=
  match phase s with
  | .p0 => .next s
  | .p1 => completeChannel (fun p => assembleR p b) s
  | .p2 => completeChannel (fun p => assembleG p b) s
  | .p3 => completeChannel (fun p => assembleB p b) s

/-- Steps 2 and 3 under the gate, which is tested once (41_decoder R133). -/
def gatedParse (b : Byte) (s : State) : Result :=
  if gateOpen s then mapNext (phaseAction b s) (advance b) else .next s

/-- `CONSUME(b)`, the four steps in order (41_decoder R131, 60_exceptions R207). -/
def consume (b : Byte) (s : State) : Result :=
  requireConfig s.cfg (mapNext (gatedParse b (resyncCursor b s)) (setCommit b))

/-- `CONSUME` of each byte of a sequence in turn, with no loop effects (95_test_vectors section 4). -/
def consumeAll : List Byte → State → Result
  | [], s => .next s
  | b :: bs, s => andThen (consume b s) (consumeAll bs)

/-! ### The receive queue and the Output Sink -/

/-- The loop takes the head byte: what is left is `rest` (42_commit R171). -/
def setRxq (rest : List Byte) (s : State) : State := { s with rxq := rest }

/-- `LOOP <- p` (42_commit R170). -/
def setLoop (p : LoopPos) (s : State) : State := { s with loop := p }

/-- The `setColor` calls for the triples of a snapshot, from chip `i` on, in ascending chip order
(42_commit R173). -/
def colorCalls : Nat → List Byte → List SinkCall
  | i, r :: g :: b :: rest => .setColor i r g b :: colorCalls (i + 1) rest
  | _, _ => []

/-- The calls of one `SHOW`: one `setColor` per chip, then one `show()` (42_commit R173). -/
def showCalls (ws : List Byte) : List SinkCall := colorCalls 0 ws ++ [.flush]

/-- Present a snapshot: the sink's calls, and one entry of `DISPLAY` (42_commit R173). -/
def emitShow (ws : List Byte) (s : State) : State :=
  { s with display := s.display ++ [ws], sinkCalls := s.sinkCalls ++ showCalls ws }

/-- `SHOW`'s body: read every cell, present the snapshot (42_commit R173). -/
def presentBuffer (s : State) : Result :=
  match snapshot s with
  | none => .fault .noSuchCell
  | some ws => .next (emitShow ws s)

/-- The consumption phase of an iteration over the queue `q`: poll, take the head byte, `CONSUME` it,
leave early when `COMMIT = 1` (42_commit R170 to R172). -/
def consumePhase : List Byte → State → Result
  | [], s => .next s
  | b :: rest, s =>
    andThen (consume b (setRxq rest s)) fun t =>
      if t.commit then .next t else consumePhase rest t

end Sys2Proof.Machine
end

