-- ==== Sys2Proof/Machine/Consume.lean ====
section
/-! DEFINITION. Machine/Consume.lean: the six decoder operations, each from its own rule (41_decoder
R134 to R137, R140, R141). Each runs where its row of the operation map holds (30_encoding R81). They
take the byte as an operand; the loop dequeues it (42_commit R170; log 17). -/

namespace Sys2Proof.Machine

/-- The end the phase operations share: `BI <- BI + 1 ; PREV <- b ; COMMIT <- 0`
(41_decoder R134 to R137). -/
def finishPayload (b : Byte) (s : State) : State :=
  { s with bi := s.bi + 1, prev := some b, commit := false }

/-- A payload byte met with the gate open at the given phase: the row's condition (30_encoding R81). -/
def payloadAt (p : Phase) (b : Byte) (s : State) : Bool :=
  !isMarker b && gateOpen s && phase s == p

/-- CONSUME.RESYNC (41_decoder R140): `(CI, BI, PREV) <- (0, 1, b)`, no write, `COMMIT <- 1`. -/
def execConsumeResync (b : Byte) (s : State) : Result :=
  requireConfig s.cfg <| requireRow (isMarker b) <|
    .next { s with ci := 0, bi := 1, prev := some b, commit := true }

/-- CONSUME.P0 (41_decoder R134): no channel completed. -/
def execConsumeP0 (b : Byte) (s : State) : Result :=
  requireConfig s.cfg <| requireRow (payloadAt .p0 b s) <| .next (finishPayload b s)

/-- CONSUME.P1 (41_decoder R135): completes the R channel of a chip. -/
def execConsumeP1 (b : Byte) (s : State) : Result :=
  requireConfig s.cfg <| requireRow (payloadAt .p1 b s) <|
    mapNext (completeChannel (fun p => assembleR p b) s) (finishPayload b)

/-- CONSUME.P2 (41_decoder R136): completes the G channel of a chip. -/
def execConsumeP2 (b : Byte) (s : State) : Result :=
  requireConfig s.cfg <| requireRow (payloadAt .p2 b s) <|
    mapNext (completeChannel (fun p => assembleG p b) s) (finishPayload b)

/-- CONSUME.P3 (41_decoder R137): completes the B channel of a chip. -/
def execConsumeP3 (b : Byte) (s : State) : Result :=
  requireConfig s.cfg <| requireRow (payloadAt .p3 b s) <|
    mapNext (completeChannel (fun p => assembleB p b) s) (finishPayload b)

/-- CONSUME.DROP (41_decoder R141): a payload byte with the gate closed changes `COMMIT` alone. -/
def execConsumeDrop (b : Byte) (s : State) : Result :=
  requireConfig s.cfg <| requireRow (!isMarker b && !gateOpen s) <|
    .next { s with commit := false }

end Sys2Proof.Machine
end

