-- ==== Sys2Proof/Machine/Encoder.lean ====
section
/-! DEFINITION. Machine/Encoder.lean: the host-side frame encoder (40_encoder). -/

namespace Sys2Proof.Machine

/-- ENCODE_FRAME (40_encoder R100): outputs the frame of `v`. The encoder has no state (10_state R33);
its output bytes are appended to the host's stream `encOut` (40_encoder R105; log 9). An input that is
not `N` values is refused (R103). -/
def execEncodeFrame (v : List Byte) (s : State) : Result :=
  requireConfig s.cfg <|
    if v.length = s.cfg.channels then .next { s with encOut := s.encOut ++ frameOf v }
    else .refused .frameLength

end Sys2Proof.Machine
end

