-- ==== Sys2Proof/Machine/Loop.lean ====
section
/-! DEFINITION. Machine/Loop.lean: the device loop's operations, the environment's, and the parts of the
loop's single steps (42_commit R170 to R173, R181). -/

namespace Sys2Proof.Machine

/-- SHOW (42_commit R173): present the Channel Buffer. Every other element is unchanged. -/
def execShowBuffer (s : State) : Result := requireConfig s.cfg (presentBuffer s)

/-- ITERATION (42_commit R170): one pass of the device loop, with no environment step inside it. -/
def execIteration (s : State) : Result :=
  requireConfig s.cfg <|
    andThen (consumePhase s.rxq (setLoop .consuming s)) fun t => presentBuffer (setLoop .showing t)

/-- ENV_RX (42_commit R181): `Enqueue(RXQ, b)` at the tail. -/
def execEnvRx (b : Byte) (s : State) : Result :=
  requireConfig s.cfg (.next { s with rxq := s.rxq ++ [b] })

/-- The poll: the operation the head of `RXQ` stands for in this state, and the rest of the queue
(42_commit R171). The error `noByte` is an empty queue. -/
def poll (s : State) : Except DecodeError (Instr × List Byte) := decode (selector s) s.rxq

/-- After a `CONSUME` the loop leaves the consumption phase if `COMMIT = 1` (42_commit R172). -/
def leaveOnCommit (s : State) : State := if s.commit then setLoop .showing s else s

/-- The poll found no byte: `LOOP <- SHOWING` (42_commit R170). -/
def endPoll (s : State) : Result := requireConfig s.cfg (.next (setLoop .showing s))

/-- The operation of an external turn; the loop's own turn has none (60_exceptions R210). -/
def turnInstr : Turn → Option Instr
  | .loop => none
  | .envRx b => some (.envRx b)
  | .encodeFrame v => some (.encodeFrame v)
  | .reset init => some (.reset init)

/-- The turn of draw `n` of an open environment (93 U7; log 18). -/
def drawnTurn (n : Nat) : Turn :=
  match Config.arrival n with
  | none => .loop
  | some b => .envRx b

/-- Leave these turns on the schedule (logs 8, 18). -/
def setSchedule (ts : List Turn) (e : Environment) (s : State) : State :=
  { s with inputs := ts, env := e }

/-- Whose turn it is, and the state with that turn taken off the schedule: the head of `inputs`; when
that list is over, what `env` goes on with, for ever (42_commit R181, R183; logs 8, 18). -/
def nextTurn (s : State) : Turn × State :=
  match s.inputs with
  | t :: ts => (t, setSchedule ts s.env s)
  | [] =>
    match s.env with
    | .repeating (t :: ts) => (t, setSchedule ts s.env s)
    | .repeating [] => (.loop, s)
    | .free n => (drawnTurn n, setSchedule [] (.free (n + 1)) s)

/-- Place one byte where the loop's very next step takes it: at the head of `RXQ`, in the consumption
phase, on the loop's turn (log 12). -/
def placeByte (b : Byte) (s : State) : State :=
  { s with rxq := b :: s.rxq, loop := .consuming, inputs := .loop :: s.inputs }

end Sys2Proof.Machine
end

