-- ==== Sys2Proof/Machine/Session.lean ====
section
/-! DEFINITION. Machine/Session.lean: session start (70_reset). -/

namespace Sys2Proof.Machine

/-- RESET with `BUFFER_INIT = init` (70_reset R230, 30_encoding R84): every element of 10_state R20 to
its reset value, then the sink's `begin()` (70_reset R233; log 10). `C` is not an operand: it is fixed
(10_state R32). The host's output and the environment's turns to come are not the block's and stay
(log 13). -/
def execReset (init : List Byte) (s : State) : Result :=
  requireConfig { s.cfg with bufferInit := init } <|
    .next { s with
      cfg := { s.cfg with bufferInit := init }
      ci := 0
      bi := 0
      prev := none
      buf := []
      commit := false
      loop := .consuming
      rxq := []
      display := []
      sinkCalls := [.begin] }

end Sys2Proof.Machine
end

