-- ==== Sys2Proof/Machine/Dispatch.lean ====
section
/-! DEFINITION. Machine/Dispatch.lean: one arm per operation. -/

namespace Sys2Proof.Machine

def exec (i : Instr) (s : State) : Host.Outcome State Fault Refusal :=
  match i with
  | .consumeResync b => Sys2Proof.Machine.execConsumeResync b s
  | .consumeP0 b => Sys2Proof.Machine.execConsumeP0 b s
  | .consumeP1 b => Sys2Proof.Machine.execConsumeP1 b s
  | .consumeP2 b => Sys2Proof.Machine.execConsumeP2 b s
  | .consumeP3 b => Sys2Proof.Machine.execConsumeP3 b s
  | .consumeDrop b => Sys2Proof.Machine.execConsumeDrop b s
  | .encodeFrame v => Sys2Proof.Machine.execEncodeFrame v s
  | .iteration => Sys2Proof.Machine.execIteration s
  | .showBuffer => Sys2Proof.Machine.execShowBuffer s
  | .envRx b => Sys2Proof.Machine.execEnvRx b s
  | .reset init => Sys2Proof.Machine.execReset init s

end Sys2Proof.Machine
end

