-- ==== Sys2Proof/Machine/Step.lean ====
section
/-! DEFINITION. Machine/Step.lean: one step of the machine. The loop has no program counter; the bytes
of `RXQ` sequence it (10_state R31). -/

namespace Sys2Proof.Machine

/-- One step of the device loop (42_commit R170; log 11). Consuming: the head byte leaves `RXQ` and its
operation runs, or the empty poll ends the phase. Showing: `SHOW`, after which the next iteration
begins. -/
def loopStep (s : State) : Host.Outcome State Fault Refusal :=
  match s.loop with
  | .showing => mapNext (exec .showBuffer s) (setLoop .consuming)
  | .consuming =>
    match poll s with
    | .ok (i, rest) => mapNext (exec i (setRxq rest s)) leaveOnCommit
    | .error .noByte => endPoll s

/-- One step: the agent whose turn it is moves (logs 8, 18). -/
def step (s : State) : Host.Outcome State Fault Refusal :=
  match turnInstr (nextTurn s).1 with
  | none => loopStep (nextTurn s).2
  | some i => exec i (nextTurn s).2

/-- The state whose very next step runs the operation of this table word, a one-byte delivery (log 12). -/
def State.withFetchWord (s : State) (_nbits w : Nat) : State := placeByte (BitVec.ofNat 8 w) s

end Sys2Proof.Machine
end

