-- ==== Sys2Proof/Safety.lean ====
section
/-! DEFINITION. Safety.lean: the invariants of the states a run reaches (10_state R34 to R37), what a run
is, and the vocabulary statements use. -/

namespace Sys2Proof.Machine

/-- The state an operation answers, if it answers one. -/
def nextState? : Result → Option State
  | .next s => some s
  | .fault _ => none
  | .refused _ => none

/-- The fault an operation ends in, if it does. -/
def faultOf? : Result → Option Fault
  | .next _ => none
  | .fault f => some f
  | .refused _ => none

/-- The refusal an operation ends in, if it does. -/
def refusalOf? : Result → Option Refusal
  | .next _ => none
  | .fault _ => none
  | .refused r => some r

/-- The cursor of a reachable state: 10_state R34, R35, R36. -/
structure CursorInv (s : State) : Prop where
  /-- `CI <= N` (R34). -/
  ciBound : s.ci ≤ s.cfg.channels
  /-- `BI <= 4C` (R34). -/
  biBound : s.bi ≤ s.cfg.frameBytes
  /-- `CI = 3 * (BI div 4) + max(0, (BI mod 4) - 1)` (R35). -/
  ciOfBi : s.ci = 3 * (s.bi / 4) + (s.bi % 4 - 1)
  /-- `BI >= 1 => PREV != ⊥` (R36). -/
  prevWritten : 1 ≤ s.bi → s.prev ≠ none

/-- The observations of a reachable state: every snapshot is the whole buffer, and the sink was
initialised once and then called as `SHOW` calls it, once per snapshot (42_commit R173, R182). -/
structure OutputInv (s : State) : Prop where
  snapshotLength : ∀ ws ∈ s.display, ws.length = s.cfg.channels
  callsOfDisplay : s.sinkCalls = .begin :: s.display.flatMap showCalls

/-- What every reachable state satisfies. -/
structure Inv (s : State) : Prop where
  config : s.cfg.Valid
  cursor : CursorInv s
  buffer : Memory.wf s.cfg s.buf = true
  outputs : OutputInv s

/-- The turn is one the host or the environment can take: an operand length the operation admits. -/
def turnWf (c : Config) (t : Turn) : Bool :=
  match turnInstr t with
  | none => true
  | some i => i.wf c

/-- The same for the turns an environment goes on with. -/
def envWf (c : Config) : Environment → Bool
  | .repeating ts => ts.all (turnWf c)
  | .free _ => true

/-- A turn that goes on with the session: a well-formed one that is no RESET. -/
def sessionTurn (c : Config) (t : Turn) : Bool :=
  match t with
  | .loop => true
  | .envRx _ => true
  | .encodeFrame v => turnWf c (.encodeFrame v)
  | .reset _ => false

/-- With `q` payload bytes queued, these turns deliver payload bytes and no resync byte, and never let the
loop find the queue empty (42_commit R183: "faster than the loop consumes them"). -/
def keepsAhead : Nat → List Turn → Bool
  | _, [] => true
  | q, .loop :: ts => decide (0 < q) && keepsAhead (q - 1) ts
  | q, .envRx b :: ts => !isMarker b && keepsAhead (q + 1) ts
  | _, .encodeFrame _ :: _ => false
  | _, .reset _ :: _ => false

/-- A state with the observations forgotten: `DISPLAY` and the two output traces. -/
def forgetOutputs (s : State) : State := { s with display := [], sinkCalls := [], encOut := [] }

/-- `k` steps of the machine, ending at the first fault or refusal: `Sys2Proof.core.run`
(`Laws/Step.lean`, `core_run_eq_runSteps`). -/
def runSteps : Nat → State → Result
  | 0, s => .next s
  | k + 1, s => andThen (step s) (runSteps k)

/-- `n` iterations in a row with no turn between them (42_commit R170). -/
def runIterations : Nat → State → Result
  | 0, s => .next s
  | n + 1, s => andThen (exec .iteration s) (runIterations n)

end Sys2Proof.Machine
end

