-- ==== Sys2Proof/Certificates/Slice0/Obligations.lean ====
section
/-! DEFINITION. Certificates/Slice0/Obligations.lean: the statements for the provers, from the numbered
rules of the spec. Bit 7 of a byte is `b.getLsbD 7`; `N` is `cfg.channels` and `F` is `cfg.frameBytes`.
Every statement over a state holds for every `C` and every `BUFFER_INIT`, since both stand in it. -/

open Sys2Proof
open Sys2Proof.Machine

/-! ### Encoding -/

/-- 30_encoding R81, R82 and the table's patterns: decoding the byte of a well-formed operation in a
state its row admits gives the operation back, and every byte in every state decodes to a well-formed
operation whose row holds there and whose byte it is. -/
def Obligations.DecodeAndEncodeAgree : Prop :=
  (∀ (c : Config) (i : Instr) (b : Byte) (sel : Selector) (rest : List Byte),
    i.wf c = true → encode i = some b → rowCondition sel i = true →
      decode sel (b :: rest) = .ok (i, rest)) ∧
  (∀ (c : Config) (sel : Selector) (b : Byte) (rest : List Byte),
    ∃ i, decode sel (b :: rest) = .ok (i, rest) ∧ i.wf c = true ∧ rowCondition sel i = true ∧
      encode i = some b)

/-- Written-out bytes of the patterns of 30_encoding R72 and R81 decode to the operations they stand
for, one byte at a time and as table words. That the table word `0x7F` alone, whose row also needs the
decoder's state, decodes to CONSUME.P0 is the model's choice of the state after reset (log 12). -/
def Obligations.WrittenOutBytesDecode : Prop :=
  decode ⟨true, .p2⟩ [0b1_0_101101#8] = .ok (.consumeResync 0xAD, []) ∧
  decode ⟨false, .p0⟩ [0b1_0_000000#8, 0x25] = .ok (.consumeResync 0x80, [0x25]) ∧
  decode ⟨true, .p0⟩ [0b0_0_000000#8] = .ok (.consumeP0 0x00, []) ∧
  decode ⟨true, .p1⟩ [0b0_0_100101#8] = .ok (.consumeP1 0x25, []) ∧
  decode ⟨true, .p2⟩ [0b0_0_101011#8] = .ok (.consumeP2 0x2B, []) ∧
  decode ⟨true, .p3⟩ [0b0_0_001100#8] = .ok (.consumeP3 0x0C, []) ∧
  decode ⟨false, .p0⟩ [0b0_1_111111#8] = .ok (.consumeDrop 0x7F, []) ∧
  decode ⟨true, .p0⟩ [] = .error .noByte ∧
  decodeTableWord 8 0x80 = some (.consumeResync 0x80) ∧
  decodeTableWord 8 0x7F = some (.consumeP0 0x7F)

/-- 30_encoding R81: the six rows of the operation map, their conditions covering every byte in every
state with `CI <= N`, each condition deciding the operation; and a resync byte reaches phase 0 with
`CI = 0 < N`. Distinct operations for overlapping conditions are impossible, so the conditions are
disjoint. -/
def Obligations.OperationMapCoversEveryByteOnce : Prop :=
  ∀ (s : State) (b : Byte), s.cfg.Valid → s.ci ≤ s.cfg.channels →
    (b.getLsbD 7 = true ∨ (s.ci < s.cfg.channels ∧ s.bi % 4 = 0) ∨
      (s.ci < s.cfg.channels ∧ s.bi % 4 = 1) ∨ (s.ci < s.cfg.channels ∧ s.bi % 4 = 2) ∨
      (s.ci < s.cfg.channels ∧ s.bi % 4 = 3) ∨ s.ci = s.cfg.channels) ∧
    (b.getLsbD 7 = true → decodeByte (selector s) b = .consumeResync b ∧
      (resyncCursor b s).ci = 0 ∧ (resyncCursor b s).ci < s.cfg.channels ∧
      phase (resyncCursor b s) = .p0) ∧
    (b.getLsbD 7 = false →
      (s.ci < s.cfg.channels → s.bi % 4 = 0 → decodeByte (selector s) b = .consumeP0 b) ∧
      (s.ci < s.cfg.channels → s.bi % 4 = 1 → decodeByte (selector s) b = .consumeP1 b) ∧
      (s.ci < s.cfg.channels → s.bi % 4 = 2 → decodeByte (selector s) b = .consumeP2 b) ∧
      (s.ci < s.cfg.channels → s.bi % 4 = 3 → decodeByte (selector s) b = .consumeP3 b) ∧
      (s.ci = s.cfg.channels → decodeByte (selector s) b = .consumeDrop b))

/-! ### The decoder operations -/

/-- 41_decoder R140. -/
def Obligations.ResyncRestartsTheFrame : Prop :=
  ∀ (s : State) (b : Byte), s.cfg.Valid → b.getLsbD 7 = true →
    (∀ sel, decodeByte sel b = .consumeResync b) ∧
    exec (.consumeResync b) s = .next { s with ci := 0, bi := 1, prev := some b, commit := true } ∧
    isFull { s with ci := 0, bi := 1, prev := some b, commit := true } = false

/-- 41_decoder R144: on a resync byte `CONSUME` leaves `CI = 0`, `BI = 1` and `PREV = b` whatever the
prior state, with `CI` and `BI` 0 after step 1, and states that differ only in the cursor become
identical. -/
def Obligations.ResyncForgetsTheCursor : Prop :=
  ∀ (s : State) (b : Byte) (ci bi : Nat) (prev : Option Byte), s.cfg.Valid → b.getLsbD 7 = true →
    consume b { s with ci := ci, bi := bi, prev := prev } = consume b s ∧
    (resyncCursor b s).ci = 0 ∧ (resyncCursor b s).bi = 0 ∧
    ∃ t, consume b s = .next t ∧ t.ci = 0 ∧ t.bi = 1 ∧ t.prev = some b ∧ t.buf = s.buf

/-- 41_decoder R134. -/
def Obligations.PhaseZeroByteIsCached : Prop :=
  ∀ (s : State) (b : Byte), s.cfg.Valid → b.getLsbD 7 = false → s.ci < s.cfg.channels →
    s.bi % 4 = 0 →
    decodeByte (selector s) b = .consumeP0 b ∧
    exec (.consumeP0 b) s = .next { s with bi := s.bi + 1, prev := some b, commit := false } ∧
    isFull { s with bi := s.bi + 1, prev := some b, commit := false } = false

/-- 41_decoder R135: the R channel, `{PREV[5:0], b[5:4]}`, goes to cell `CI`; every other cell and every
other element is unchanged; `FULL` is the new `CI = N`, which the cursor's invariant rules out. -/
def Obligations.PhaseOneCompletesRed : Prop :=
  ∀ (s : State) (b p : Byte), s.cfg.Valid → b.getLsbD 7 = false → s.ci < s.cfg.channels →
    s.bi % 4 = 1 → s.prev = some p →
    decodeByte (selector s) b = .consumeP1 b ∧
    ∃ m, exec (.consumeP1 b) s = .next { s with
        buf := m, ci := s.ci + 1, bi := s.bi + 1, prev := some b, commit := false } ∧
      memRead s.cfg m s.ci = some (trunc8 ((p.toNat <<< 2) ||| ((b.toNat >>> 4) &&& 0x03))) ∧
      memRead s.cfg m s.ci = some (p.extractLsb' 0 6 ++ b.extractLsb' 4 2 : BitVec 8) ∧
      (∀ j, j ≠ s.ci → memRead s.cfg m j = memRead s.cfg s.buf j) ∧
      (CursorInv s → s.ci + 1 ≠ s.cfg.channels)

/-- 41_decoder R136: the G channel, `{PREV[3:0], b[5:2]}`. -/
def Obligations.PhaseTwoCompletesGreen : Prop :=
  ∀ (s : State) (b p : Byte), s.cfg.Valid → b.getLsbD 7 = false → s.ci < s.cfg.channels →
    s.bi % 4 = 2 → s.prev = some p →
    decodeByte (selector s) b = .consumeP2 b ∧
    ∃ m, exec (.consumeP2 b) s = .next { s with
        buf := m, ci := s.ci + 1, bi := s.bi + 1, prev := some b, commit := false } ∧
      memRead s.cfg m s.ci = some (trunc8 ((p.toNat <<< 4) ||| ((b.toNat >>> 2) &&& 0x0F))) ∧
      memRead s.cfg m s.ci = some (p.extractLsb' 0 4 ++ b.extractLsb' 2 4 : BitVec 8) ∧
      (∀ j, j ≠ s.ci → memRead s.cfg m j = memRead s.cfg s.buf j) ∧
      (CursorInv s → s.ci + 1 ≠ s.cfg.channels)

/-- 41_decoder R137: the B channel, `{PREV[1:0], b[5:0]}`; `FULL` rises exactly when the new `BI = 4C`. -/
def Obligations.PhaseThreeCompletesBlue : Prop :=
  ∀ (s : State) (b p : Byte), s.cfg.Valid → b.getLsbD 7 = false → s.ci < s.cfg.channels →
    s.bi % 4 = 3 → s.prev = some p →
    decodeByte (selector s) b = .consumeP3 b ∧
    ∃ m, exec (.consumeP3 b) s = .next { s with
        buf := m, ci := s.ci + 1, bi := s.bi + 1, prev := some b, commit := false } ∧
      memRead s.cfg m s.ci = some (trunc8 ((p.toNat <<< 6) ||| (b.toNat &&& 0x3F))) ∧
      memRead s.cfg m s.ci = some (p.extractLsb' 0 2 ++ b.extractLsb' 0 6 : BitVec 8) ∧
      (∀ j, j ≠ s.ci → memRead s.cfg m j = memRead s.cfg s.buf j) ∧
      (CursorInv s → (s.ci + 1 = s.cfg.channels ↔ s.bi + 1 = s.cfg.frameBytes))

/-- 41_decoder R141. -/
def Obligations.DropChangesCommitAlone : Prop :=
  ∀ (s : State) (b : Byte), s.cfg.Valid → b.getLsbD 7 = false → s.ci = s.cfg.channels →
    decodeByte (selector s) b = .consumeDrop b ∧
    exec (.consumeDrop b) s = .next { s with commit := false } ∧
    isFull { s with commit := false } = true

/-- 41_decoder R131: the named operations are the paths through `CONSUME(b)`: the operation that a byte
selects in a state does there what the shared `CONSUME` does. -/
def Obligations.NamedOperationsArePathsOfConsume : Prop :=
  ∀ (s : State) (b : Byte), exec (decodeByte (selector s) b) s = consume b s

/-- The model's choice (log 6): a named path asked for where its row does not hold is refused by name,
under a valid configuration; so each path runs only in the states of its row. -/
def Obligations.UnselectedPathIsRefused : Prop :=
  ∀ (s : State) (i : Instr) (b : Byte), s.cfg.Valid →
    i ∈ [Instr.consumeResync b, .consumeP0 b, .consumeP1 b, .consumeP2 b, .consumeP3 b,
      .consumeDrop b] →
    i ≠ decodeByte (selector s) b → exec i s = .refused .notSelected

/-- 30_encoding R77 as the decoder's formulas have it: the low 8 bits of each formula are the carry field
of `PREV` followed by the field of `b`. -/
def Obligations.ChannelIsCarryThenField : Prop :=
  ∀ (p b : Byte),
    assembleR p b = (p.extractLsb' 0 6 ++ b.extractLsb' 4 2 : BitVec 8) ∧
    assembleG p b = (p.extractLsb' 0 4 ++ b.extractLsb' 2 4 : BitVec 8) ∧
    assembleB p b = (p.extractLsb' 0 2 ++ b.extractLsb' 0 6 : BitVec 8)

/-- 30_encoding R78: streams that differ only in bit 6 of their bytes have the same effect on the state,
except for the value held in `PREV`, which differs at most in bit 6. -/
def Obligations.BitSixReachesOnlyPrev : Prop :=
  ∀ (s t : State) (bs bs' : List Byte),
    List.Forall₂ (fun x y : Byte => x &&& 0xBF = y &&& 0xBF) bs bs' →
    consumeAll bs s = .next t →
    ∃ p', consumeAll bs' s = .next { t with prev := p' } ∧
      p'.map (· &&& (0xBF : Byte)) = t.prev.map (· &&& (0xBF : Byte))

/-- 10_state R34: a `CONSUME` moves `CI` and `BI` only inside the gate or by a resync, `BI` by exactly
1 and `CI` by at most 1, and the phase steps 0, 1, 2, 3, 0 (41_decoder R143). -/
def Obligations.CursorMovesOnlyInTheGate : Prop :=
  ∀ (s t : State) (b : Byte), b.getLsbD 7 = false → consume b s = .next t →
    (s.cfg.channels ≤ s.ci → t.ci = s.ci ∧ t.bi = s.bi ∧ t.prev = s.prev ∧ t.buf = s.buf) ∧
    (s.ci < s.cfg.channels → t.bi = s.bi + 1 ∧ t.prev = some b ∧
      ((phase s = .p0 ∧ phase t = .p1 ∧ t.ci = s.ci ∧ t.buf = s.buf) ∨
        (phase s = .p1 ∧ phase t = .p2 ∧ t.ci = s.ci + 1) ∨
        (phase s = .p2 ∧ phase t = .p3 ∧ t.ci = s.ci + 1) ∨
        (phase s = .p3 ∧ phase t = .p0 ∧ t.ci = s.ci + 1)))

/-- 41_decoder R147: payload bytes that arrive once `FULL` holds change no state until the next resync;
`COMMIT` is 0 after them (R141). -/
def Obligations.PayloadAfterFullChangesNothing : Prop :=
  ∀ (s : State) (ps : List Byte), s.cfg.Valid → s.ci = s.cfg.channels →
    (∀ b ∈ ps, b.getLsbD 7 = false) → ps ≠ [] →
    consumeAll ps s = .next { s with commit := false }

/-- 20_memory R53, R60: a stream of payload bytes writes only the cells from `CI` before to `CI` after;
every other cell keeps its value. -/
def Obligations.PayloadWritesOnlyTheCellsItPasses : Prop :=
  ∀ (s t : State) (ps : List Byte), (∀ b ∈ ps, b.getLsbD 7 = false) → consumeAll ps s = .next t →
    s.ci ≤ t.ci ∧ t.cfg = s.cfg ∧
    ∀ j, (j < s.ci ∨ t.ci ≤ j) → memRead t.cfg t.buf j = memRead s.cfg s.buf j

/-! ### Streams -/

/-- 40_encoder R107, the round-trip law, from every state of a valid configuration. -/
def Obligations.EncodedFrameDecodesToItself : Prop :=
  ∀ (s : State) (v : List Byte), s.cfg.Valid → v.length = s.cfg.channels →
    ∃ m, consumeAll (frameOf v) s = .next { s with
        buf := m, ci := s.cfg.channels, bi := s.cfg.frameBytes,
        prev := v.getLast?.map (· &&& (0x3F : Byte)), commit := false } ∧
      (frameOf v).getLast? = v.getLast?.map (· &&& (0x3F : Byte)) ∧
      ∀ j, j < s.cfg.channels → memRead s.cfg m j = v[j]?

/-- 41_decoder R146: `m` bytes from a resync on, none of the later ones a resync, complete
`k = min(N, m - ceil(m/4))` channels; the cells from `k` on keep their values, and the next resync
leaves the buffer as it is (R142). -/
def Obligations.ChannelCountOfATruncatedFrame : Prop :=
  ∀ (s : State) (r r2 : Byte) (ps : List Byte), s.cfg.Valid → r.getLsbD 7 = true →
    r2.getLsbD 7 = true → (∀ b ∈ ps, b.getLsbD 7 = false) →
    ∃ t u, consumeAll (r :: ps) s = .next t ∧
      t.ci = min s.cfg.channels ((ps.length + 1) - (ps.length + 1 + 3) / 4) ∧
      (∀ j, t.ci ≤ j → memRead t.cfg t.buf j = memRead s.cfg s.buf j) ∧
      consume r2 t = .next u ∧ u = { t with ci := 0, bi := 1, prev := some r2, commit := true }

/-- 41_decoder R145: a frame cut short after `m` of its bytes by another resync leaves its first `k`
channels in the buffer and every other cell as it was. -/
def Obligations.TruncatedFrameKeepsTheRest : Prop :=
  ∀ (s : State) (v : List Byte) (m : Nat) (r2 : Byte), s.cfg.Valid →
    v.length = s.cfg.channels → 1 ≤ m → m ≤ s.cfg.frameBytes → r2.getLsbD 7 = true →
    ∃ u, consumeAll ((frameOf v).take m ++ [r2]) s = .next u ∧
      u.ci = 0 ∧ u.bi = 1 ∧ u.prev = some r2 ∧ u.commit = true ∧
      (∀ j, j < m - (m + 3) / 4 → memRead u.cfg u.buf j = v[j]?) ∧
      (∀ j, m - (m + 3) / 4 ≤ j → memRead u.cfg u.buf j = memRead s.cfg s.buf j)

/-- 41_decoder R149: a frame of a sender with `Ce` chips fills the first `min(3Ce, N)` cells with its
channels and leaves the others, with no error. -/
def Obligations.MismatchedSenderFillsAPrefix : Prop :=
  ∀ (s : State) (v : List Byte) (ce : Nat), s.cfg.Valid → 1 ≤ ce → v.length = 3 * ce →
    ∃ t, consumeAll (frameOf v) s = .next t ∧
      t.ci = min (3 * ce) s.cfg.channels ∧
      (∀ j, j < min (3 * ce) s.cfg.channels → memRead t.cfg t.buf j = v[j]?) ∧
      (∀ j, min (3 * ce) s.cfg.channels ≤ j → memRead t.cfg t.buf j = memRead s.cfg s.buf j)

/-! ### The encoder -/

/-- 40_encoder R100, R103, R104: the frame has `4C` bytes, the four bytes of each chip's group are those
of the pseudocode, and an input that is not `N` values is refused. -/
def Obligations.FrameBytesOfEachChip : Prop :=
  (∀ (c : Nat) (v : List Byte), v.length = 3 * c →
    (frameOf v).length = 4 * c ∧
    ∀ (j : Nat) (r g b : Byte), v[3 * j]? = some r → v[3 * j + 1]? = some g →
      v[3 * j + 2]? = some b →
      (frameOf v)[4 * j]? = some ((if j = 0 then 0x80 else 0x00) ||| (r >>> 2)) ∧
      (frameOf v)[4 * j + 1]? = some (((r &&& 0x03) <<< 4) ||| (g >>> 4)) ∧
      (frameOf v)[4 * j + 2]? = some (((g &&& 0x0F) <<< 2) ||| (b >>> 6)) ∧
      (frameOf v)[4 * j + 3]? = some (b &&& 0x3F)) ∧
  (∀ (s : State) (v : List Byte), s.cfg.Valid → v.length ≠ s.cfg.channels →
    exec (.encodeFrame v) s = .refused .frameLength)

/-- 40_encoder R101, R102: bit 6 is 0 in every frame byte, bit 7 is 1 in frame byte 0 alone, and that
byte carries `R[7:2]` of chip 0. -/
def Obligations.FrameIsSevenBitClean : Prop :=
  ∀ (c : Nat) (v : List Byte), 1 ≤ c → v.length = 3 * c →
    (∀ (k : Nat) (e : Byte), (frameOf v)[k]? = some e →
      e.getLsbD 6 = false ∧ e.getLsbD 7 = decide (k = 0)) ∧
    ∀ (e r : Byte), (frameOf v)[0]? = some e → v[0]? = some r →
      e.extractLsb' 0 6 = r.extractLsb' 2 6

/-- 30_encoding R74: group byte `k` carries bits `23-6k : 18-6k` of the group word. -/
def Obligations.GroupBytesCutTheGroupWord : Prop :=
  ∀ (first : Bool) (r g b : Byte),
    (groupByte0 first r).extractLsb' 0 6 = (r ++ g ++ b : BitVec 24).extractLsb' 18 6 ∧
    (groupByte1 r g).extractLsb' 0 6 = (r ++ g ++ b : BitVec 24).extractLsb' 12 6 ∧
    (groupByte2 g b).extractLsb' 0 6 = (r ++ g ++ b : BitVec 24).extractLsb' 6 6 ∧
    (groupByte3 b).extractLsb' 0 6 = (r ++ g ++ b : BitVec 24).extractLsb' 0 6

/-- ENCODE_FRAME completes on `N` values: its frame is output, and nothing else changes (40_encoder R100,
10_state R33). That the output is appended to `encOut` is the model's choice (log 9). -/
def Obligations.EncodeFrameOutputsTheFrame : Prop :=
  ∀ (s : State) (v : List Byte), s.cfg.Valid → v.length = s.cfg.channels →
    exec (.encodeFrame v) s = .next { s with encOut := s.encOut ++ frameOf v }

/-- 60_exceptions R208, the model-level outcomes: (a) a configuration with `C = 0` is refused (that it
is every operation and every step that refuses it is the model's choice, log 14);
(b) a wrong input length is refused by ENCODE_FRAME; (c) a read of `PREV` while it is `⊥` is a model fault,
and no state of the invariant performs one. -/
def Obligations.ModelLevelOutcomes : Prop :=
  (∀ (s : State) (i : Instr), s.cfg.chipCount = 0 → exec i s = .refused .chipCountZero) ∧
  (∀ (s : State), s.cfg.chipCount = 0 → step s = .refused .chipCountZero) ∧
  (∀ (s : State) (v : List Byte), s.cfg.Valid → v.length ≠ s.cfg.channels →
    exec (.encodeFrame v) s = .refused .frameLength) ∧
  (∀ (s : State) (b : Byte), s.cfg.Valid → b.getLsbD 7 = false → s.ci < s.cfg.channels →
    s.bi % 4 ≠ 0 → s.prev = none →
    exec (decodeByte (selector s) b) s = .fault .prevUnwritten) ∧
  (∀ (s : State) (i : Instr), Inv s → exec i s ≠ .fault .prevUnwritten)

/-- A state whose `BUFFER_INIT` is not `N` values is no configuration of the spec (00_scope R7): every
operation but RESET, which brings its own, is refused. The refusal is the model's choice (log 14). -/
def Obligations.WrongBufferInitIsRefused : Prop :=
  ∀ (s : State) (i : Instr), 1 ≤ s.cfg.chipCount → s.cfg.bufferInit.length ≠ s.cfg.channels →
    (∀ init, i ≠ .reset init) → exec i s = .refused .bufferInitLength

/-- Every stop an operation can end in under a valid configuration. The only fault is a read of `PREV`
while it is `⊥` (00_scope R14, 60_exceptions R208 (c)), by a phase operation or by ITERATION. The
refusals are exactly: ENCODE_FRAME on a wrong length (40_encoder R103), and the model's own two, RESET
with an operand that is no `BUFFER_INIT` (log 14) and a path of `CONSUME` its byte does not select there
(log 6). -/
def Obligations.StopsUnderAValidConfiguration : Prop :=
  (∀ (s : State) (i : Instr) (f : Fault), s.cfg.Valid → exec i s = .fault f →
    f = .prevUnwritten ∧ s.prev = none ∧
      (i = .iteration ∨ ∃ b, i = .consumeP1 b ∨ i = .consumeP2 b ∨ i = .consumeP3 b)) ∧
  (∀ (s : State) (i : Instr) (r : Refusal), s.cfg.Valid →
    (exec i s = .refused r ↔
      (r = .frameLength ∧ ∃ v, i = .encodeFrame v ∧ v.length ≠ s.cfg.channels) ∨
      (r = .bufferInitLength ∧ ∃ init, i = .reset init ∧ init.length ≠ s.cfg.channels) ∨
      (r = .notSelected ∧ ∃ b, i ≠ decodeByte (selector s) b ∧
        i ∈ [Instr.consumeResync b, .consumeP0 b, .consumeP1 b, .consumeP2 b, .consumeP3 b,
          .consumeDrop b])))

/-- 20_memory R50: the buffer has the cells `0 .. N-1` and no other: under a valid configuration an access
fails exactly outside them, and no operation makes such an access in any state. -/
def Obligations.OnlyTheNCellsExist : Prop :=
  (∀ (c : Config) (m : Memory) (i : Nat) (v : Byte), c.Valid →
    (memRead c m i = none ↔ c.channels ≤ i) ∧ (memWrite c m i v = none ↔ c.channels ≤ i)) ∧
  (∀ (s : State) (i : Instr), exec i s ≠ .fault .noSuchCell)

/-! ### The loop -/

/-- 42_commit R173: SHOW reads every cell in index order, calls `setColor` once per chip in ascending
order and `show()` once, and appends the snapshot to `DISPLAY`; every other element is unchanged. -/
def Obligations.ShowPresentsTheWholeBuffer : Prop :=
  ∀ (s : State), s.cfg.Valid →
    ∃ ws : List Byte, ws.length = s.cfg.channels ∧
      (∀ i, i < s.cfg.channels → memRead s.cfg s.buf i = ws[i]?) ∧
      exec .showBuffer s = .next { s with
        display := s.display ++ [ws]
        sinkCalls := s.sinkCalls ++
          ((List.range s.cfg.chipCount).map fun i =>
            SinkCall.setColor i (ws.getD (3 * i) 0) (ws.getD (3 * i + 1) 0)
              (ws.getD (3 * i + 2) 0)) ++ [.flush] }

/-- 20_memory R59: SHOW changes neither `BUF` nor the cursor, and a second SHOW, whatever the
environment, the host and the loop's position did between them, presents an equal snapshot. -/
def Obligations.ShowTwicePresentsEqualSnapshots : Prop :=
  ∀ (s : State), s.cfg.Valid →
    ∃ t ws, exec .showBuffer s = .next t ∧
      t.buf = s.buf ∧ t.ci = s.ci ∧ t.bi = s.bi ∧ t.prev = s.prev ∧ t.display = s.display ++ [ws] ∧
      ∀ (p : LoopPos) (q out : List Byte) (turns : List Turn) (e : Environment), ∃ u,
        exec .showBuffer { t with loop := p, rxq := q, encOut := out, inputs := turns, env := e } =
          .next u ∧
        u.display = s.display ++ [ws, ws]

/-- 42_commit R170 to R172, R184: from a state of the invariant an iteration takes a prefix of `RXQ`, in
arrival order and each byte once, up to and with the first resync byte or all of it when there is none;
the rest stays queued in order; then it shows once. -/
def Obligations.IterationConsumesThenShows : Prop :=
  ∀ (s : State), Inv s →
    ∃ (taken left ws : List Byte) (t : State),
      s.rxq = taken ++ left ∧
      ((left = [] ∧ ∀ b ∈ taken, b.getLsbD 7 = false) ∨
        ∃ ps r, taken = ps ++ [r] ∧ r.getLsbD 7 = true ∧ ∀ b ∈ ps, b.getLsbD 7 = false) ∧
      consumeAll taken { s with loop := .consuming, rxq := left } = .next t ∧
      snapshot t = some ws ∧
      exec .iteration s = .next { t with
        loop := .showing, display := s.display ++ [ws], sinkCalls := s.sinkCalls ++ showCalls ws }

/-- 42_commit R172, R177: an iteration that meets a resync byte consumes it and no more, and shows the
buffer as it stood before that byte. -/
def Obligations.IterationLeavesEarlyOnResync : Prop :=
  ∀ (s : State) (ps rest : List Byte) (r : Byte), Inv s → s.rxq = ps ++ r :: rest →
    (∀ b ∈ ps, b.getLsbD 7 = false) → r.getLsbD 7 = true →
    ∃ (u t : State) (ws : List Byte),
      consumeAll ps s = .next u ∧ snapshot u = some ws ∧
      exec .iteration s = .next t ∧ t.rxq = rest ∧ t.commit = true ∧
      t.ci = 0 ∧ t.bi = 1 ∧ t.prev = some r ∧ t.buf = u.buf ∧
      t.display = s.display ++ [ws]

/-- 42_commit R170 against the single steps: an iteration is what the loop's own steps do from its start
to the start of the next one, whose first assignment is `LOOP <- CONSUMING` (log 11), under every schedule
that leaves the loop that many turns, and where the loop runs alone. -/
def Obligations.IterationIsARunOfLoopSteps : Prop :=
  ∀ (s : State), s.loop = .consuming →
    ∃ k, (∀ (turns : List Turn) (e : Environment),
        runSteps k { s with inputs := List.replicate k .loop ++ turns, env := e } =
          mapNext (exec .iteration { s with inputs := turns, env := e }) (setLoop .consuming)) ∧
      (s.inputs = [] → s.env = .repeating [] →
        runSteps k s = mapNext (exec .iteration s) (setLoop .consuming))

/-- 42_commit R178: with no bytes arriving, each iteration shows the same snapshot again. -/
def Obligations.StalledSenderFreezesTheDisplay : Prop :=
  ∀ (s : State) (n : Nat), s.cfg.Valid → s.rxq = [] →
    ∃ (ws : List Byte) (t : State), snapshot s = some ws ∧
      runIterations n s = .next t ∧
      t.display = s.display ++ List.replicate n ws ∧
      t.ci = s.ci ∧ t.bi = s.bi ∧ t.prev = s.prev ∧ t.buf = s.buf ∧ t.rxq = []

/-- 42_commit R183: the consumption phase ends only on an empty queue or with a resync byte; and while the
environment delivers payload bytes and no resync, faster than the loop takes them, for ever (the turns
`cycle` again and again; log 18), no number of steps shows anything. So a claim that a SHOW happens needs
a premise on the environment, as in the next two statements. -/
def Obligations.EndlessPayloadNeverShows : Prop :=
  (∀ (s t : State), step s = .next t → s.loop = .consuming → t.loop = .showing →
    s.rxq = [] ∨ ∃ r rest, s.rxq = r :: rest ∧ r.getLsbD 7 = true ∧ t.rxq = rest) ∧
  (∀ (s : State) (cycle : List Turn), Inv s → s.loop = .consuming →
    (∀ b ∈ s.rxq, b.getLsbD 7 = false) → keepsAhead s.rxq.length s.inputs = true →
    s.env = .repeating cycle → cycle ≠ [] → keepsAhead 0 cycle = true →
    ∀ k, ∃ t, runSteps k s = .next t ∧
      t.display = s.display ∧ t.sinkCalls = s.sinkCalls ∧ t.loop = .consuming)

/-- 42_commit R183, the premise that the environment eventually stops: after any turns of the session, the
loop left alone shows. -/
def Obligations.ShowHappensOnceTheEnvironmentStops : Prop :=
  ∀ (s : State), Inv s → s.env = .repeating [] → (∀ t ∈ s.inputs, sessionTurn s.cfg t = true) →
    ∃ k t new, runSteps k s = .next t ∧ new ≠ [] ∧ t.display = s.display ++ new

/-- 42_commit R183, the premise of finitely many bytes before a resync: with a resync byte behind `ps` in
the queue, any turns of the session that leave the loop `ps.length + 2` steps show, whatever else
arrives. -/
def Obligations.ShowHappensWhenAResyncIsQueued : Prop :=
  ∀ (s : State) (ps rest : List Byte) (r : Byte), Inv s → s.rxq = ps ++ r :: rest →
    r.getLsbD 7 = true → (∀ t ∈ s.inputs, sessionTurn s.cfg t = true) →
    ps.length + 2 ≤ s.inputs.count .loop →
    ∃ t new, runSteps s.inputs.length s = .next t ∧ new ≠ [] ∧ t.display = s.display ++ new

/-- 70_reset R240, 42_commit R177: a frame received whole is shown by the second iteration; the first,
which its resync byte ends, shows the buffer as it stood before. -/
def Obligations.ReceivedFrameReachesTheDisplay : Prop :=
  ∀ (s : State) (v : List Byte), Inv s → v.length = s.cfg.channels → s.rxq = frameOf v →
    ∃ (t u : State) (ws : List Byte), snapshot s = some ws ∧
      exec .iteration s = .next t ∧ t.display = s.display ++ [ws] ∧
      exec .iteration t = .next u ∧ u.display = s.display ++ [ws, v] ∧
      u.rxq = [] ∧ u.ci = s.cfg.channels ∧ ∀ j, j < s.cfg.channels → memRead u.cfg u.buf j = v[j]?

/-- 42_commit R181: ENV_RX appends at the tail, at any position of the loop. -/
def Obligations.EnvRxAppendsAtTheTail : Prop :=
  ∀ (s : State) (b : Byte), s.cfg.Valid →
    exec (.envRx b) s = .next { s with rxq := s.rxq ++ [b] } ∧
    ∀ s', nextTurn s = (.envRx b, s') → step s = .next { s' with rxq := s.rxq ++ [b] }

/-- 70_reset R230, every row of its table. -/
def Obligations.ResetSetsEveryElement : Prop :=
  ∀ (s : State) (init : List Byte), 1 ≤ s.cfg.chipCount → init.length = s.cfg.channels →
    ∃ t, exec (.reset init) s = .next t ∧
      t.cfg.chipCount = s.cfg.chipCount ∧
      t.ci = 0 ∧ t.bi = 0 ∧ phase t = .p0 ∧ t.prev = none ∧
      (∀ i, i < s.cfg.channels → memRead t.cfg t.buf i = init[i]?) ∧
      isFull t = false ∧ t.commit = false ∧ t.loop = .consuming ∧ t.rxq = [] ∧ t.display = []

/-- RESET gives the state after reset of its parameters, with the host's output and the environment's
turns left (70_reset R230, R233; the model's choices: logs 10, 13), and is refused where its operand is
no `BUFFER_INIT` (log 14). -/
def Obligations.ResetIsTheBootState : Prop :=
  (∀ (s : State) (init : List Byte), 1 ≤ s.cfg.chipCount → init.length = s.cfg.channels →
    exec (.reset init) s = .next { State.boot { s.cfg with bufferInit := init } with
      encOut := s.encOut, inputs := s.inputs, env := s.env }) ∧
  (∀ (s : State) (init : List Byte), 1 ≤ s.cfg.chipCount → init.length ≠ s.cfg.channels →
    exec (.reset init) s = .refused .bufferInitLength)

/-! ### Steps -/

/-- The schedule (logs 8, 18): the listed turns in order, then what the environment goes on with for ever:
its turns again and again, the loop alone, or its open draws. Taking a turn changes nothing else. -/
def Obligations.NextTurnFollowsTheSchedule : Prop :=
  (∀ (s : State) (t : Turn) (ts : List Turn), s.inputs = t :: ts →
    nextTurn s = (t, { s with inputs := ts })) ∧
  (∀ (s : State) (t : Turn) (ts : List Turn), s.inputs = [] → s.env = .repeating (t :: ts) →
    nextTurn s = (t, { s with inputs := ts })) ∧
  (∀ (s : State), s.inputs = [] → s.env = .repeating [] → nextTurn s = (.loop, s)) ∧
  (∀ (s : State) (n : Nat), s.inputs = [] → s.env = .free n →
    nextTurn s = ((Config.arrival n).elim .loop .envRx, { s with env := .free (n + 1) }))

/-- A step runs the decoded operation: on the loop's turn, consuming, the head byte leaves `RXQ`, its
operation runs, and `COMMIT = 1` ends the consumption phase (42_commit R170 to R172). -/
def Obligations.StepRunsTheDecodedByte : Prop :=
  ∀ (s s' : State) (i : Instr) (rest : List Byte), nextTurn s = (.loop, s') → s.loop = .consuming →
    decode (selector s) s.rxq = .ok (i, rest) →
    step s = mapNext (exec i { s' with rxq := rest }) fun t =>
      if t.commit then { t with loop := .showing } else t

/-- The other steps: an empty poll ends the consumption phase; showing is one SHOW, after which the next
iteration begins (42_commit R170, R171, R174; log 11); an external turn is its operation (log 8). -/
def Obligations.StepWithoutAByte : Prop :=
  (∀ (s s' : State), s.cfg.Valid → nextTurn s = (.loop, s') → s.loop = .consuming → s.rxq = [] →
    step s = .next { s' with loop := .showing }) ∧
  (∀ (s s' : State), nextTurn s = (.loop, s') → s.loop = .showing →
    step s = mapNext (exec .showBuffer s') fun t => { t with loop := .consuming }) ∧
  (∀ (s s' : State) (t : Turn) (i : Instr), nextTurn s = (t, s') → turnInstr t = some i →
    step s = exec i s')

/-- 42_commit R180, under any schedule: the loop's step that consumes a resync byte shows nothing and leaves
the loop showing; a showing loop's next step is one SHOW of the buffer and no CONSUME, after which it
consumes again (that it does so in the same step is log 11); a delivery or the host's turn in between
moves neither; and the loop turns to showing only on its own step, on an empty queue or on such a byte. -/
def Obligations.CommitIsFollowedByOneShow : Prop :=
  (∀ (s s' : State) (r : Byte) (rest : List Byte), Inv s → nextTurn s = (.loop, s') →
    s.loop = .consuming → s.rxq = r :: rest → r.getLsbD 7 = true →
    ∃ t, step s = .next t ∧ t.commit = true ∧ t.loop = .showing ∧ t.display = s.display ∧
      t.rxq = rest ∧ t.buf = s.buf) ∧
  (∀ (s s' : State), Inv s → nextTurn s = (.loop, s') → s.loop = .showing →
    ∃ u ws, snapshot s = some ws ∧ step s = .next u ∧ u.display = s.display ++ [ws] ∧
      u.rxq = s.rxq ∧ u.ci = s.ci ∧ u.bi = s.bi ∧ u.prev = s.prev ∧ u.buf = s.buf ∧
      u.loop = .consuming) ∧
  (∀ (s s' : State) (x : Turn), Inv s → nextTurn s = (x, s') → x ≠ .loop →
    sessionTurn s.cfg x = true →
    ∃ u, step s = .next u ∧ u.loop = s.loop ∧ u.display = s.display ∧ u.buf = s.buf) ∧
  (∀ (s t : State), step s = .next t → s.loop = .consuming → t.loop = .showing →
    (nextTurn s).1 = .loop ∧
      (s.rxq = [] ∨
        ∃ r rest, s.rxq = r :: rest ∧ r.getLsbD 7 = true ∧ t.commit = true ∧ t.rxq = rest))

/-! ### The whole machine -/

/-- What the eleven operations may change (10_state R20, R28, R29, R32, R39; 20_memory R52, R53; 42_commit
R176, R184), element by element: `C` never; the parameters only by RESET; the cursor and the buffer only
by the decoder's operations, ITERATION and RESET, one cell by a phase operation; `LOOP` only by ITERATION
and RESET; `RXQ` only by ENV_RX, at the tail, by ITERATION, from the head, and by RESET, which empties it;
`DISPLAY` only by SHOW, ITERATION and RESET. The model's choices: `COMMIT` keeps its value between the
decoder's operations (log 15), and the clauses on `sinkCalls`, `encOut`, `inputs` and `env` are about
fields of the model's own (logs 10, 9, 8, 18). -/
def Obligations.OnlyTheOwnerChangesEachElement : Prop :=
  ∀ (s t : State) (i : Instr), exec i s = .next t →
    t.cfg.chipCount = s.cfg.chipCount ∧
    ((∀ init, i ≠ .reset init) → t.cfg = s.cfg ∧ ∃ new, t.display = s.display ++ new) ∧
    (i = .showBuffer ∨ (∃ b, i = .envRx b) ∨ (∃ v, i = .encodeFrame v) →
      t.ci = s.ci ∧ t.bi = s.bi ∧ t.prev = s.prev ∧ t.buf = s.buf ∧ t.commit = s.commit) ∧
    ((∃ b, i = .consumeResync b ∨ i = .consumeP0 b ∨ i = .consumeDrop b) → t.buf = s.buf) ∧
    ((∃ b, i = .consumeP1 b ∨ i = .consumeP2 b ∨ i = .consumeP3 b) →
      ∀ j, j ≠ s.ci → memRead t.cfg t.buf j = memRead s.cfg s.buf j) ∧
    (i ≠ .iteration ∧ (∀ init, i ≠ .reset init) → t.loop = s.loop) ∧
    (i ≠ .iteration ∧ (∀ init, i ≠ .reset init) ∧ (∀ b, i ≠ .envRx b) → t.rxq = s.rxq) ∧
    (∀ b, i = .envRx b → t.rxq = s.rxq ++ [b]) ∧
    (i = .iteration → ∃ taken, s.rxq = taken ++ t.rxq) ∧
    (∀ init, i = .reset init → t.rxq = [] ∧ t.display = [] ∧ t.loop = .consuming) ∧
    (i ≠ .showBuffer ∧ i ≠ .iteration ∧ (∀ init, i ≠ .reset init) →
      t.display = s.display ∧ t.sinkCalls = s.sinkCalls) ∧
    ((∀ v, i ≠ .encodeFrame v) → t.encOut = s.encOut) ∧
    t.inputs = s.inputs ∧ t.env = s.env

/-- The observations are outputs only (10_state R20, R30; logs 9, 10): forgetting `DISPLAY` and the two
output traces changes no operation's outcome but in them. -/
def Obligations.OutputsAreNeverRead : Prop :=
  ∀ (s : State) (i : Instr),
    mapNext (exec i (forgetOutputs s)) forgetOutputs = mapNext (exec i s) forgetOutputs

/-- The canonical form is one per buffer (log 4): well-formed buffers that read the same are equal. -/
def Obligations.EqualReadsAreEqualBuffers : Prop :=
  ∀ (c : Config) (m m' : Memory), c.Valid → Memory.wf c m = true → Memory.wf c m' = true →
    (∀ i, i < c.channels → memRead c m i = memRead c m' i) → m = m'

/-- The state after reset meets the invariant, for the model's own parameters and for any valid ones
(70_reset R230). -/
def Obligations.ResetMeetsTheInvariant : Prop :=
  Inv State.reset ∧ ∀ c : Config, c.Valid → Inv (State.boot c)

/-- Every step keeps the invariant, from every state that meets it (10_state R34 to R36). -/
def Obligations.EveryStepKeepsTheInvariant : Prop :=
  ∀ (s t : State), Inv s → step s = .next t → Inv t

/-- 60_exceptions R200: from every state of the invariant the next step answers a next state, where the
next turn has operands of the right length. -/
def Obligations.NoStepStops : Prop :=
  ∀ (s : State), Inv s → turnWf s.cfg (nextTurn s).1 = true → ∃ t, step s = .next t

/-- 10_state R34 to R37 of every reachable state: from boot, where `CI` and `BI` are 0, under any parameters
and any schedule of the host's and the environment's turns, every run goes on and its state satisfies
them; R34's rules of motion are said of every byte consumed there. -/
def Obligations.ReachableStatesSatisfyTheCursorLaws : Prop :=
  ∀ (c : Config) (turns : List Turn) (e : Environment) (k : Nat), c.Valid →
    (∀ t ∈ turns, turnWf c t = true) → envWf c e = true →
    (State.boot c).ci = 0 ∧ (State.boot c).bi = 0 ∧
    ∃ t, runSteps k { State.boot c with inputs := turns, env := e } = .next t ∧
      t.cfg.chipCount = c.chipCount ∧ t.ci ≤ c.channels ∧ t.bi ≤ c.frameBytes ∧
      t.ci = t.bi - (t.bi + 3) / 4 ∧ t.ci = 3 * (t.bi / 4) + (t.bi % 4 - 1) ∧
      (1 ≤ t.bi → t.prev ≠ none) ∧ (isFull t = true ↔ t.bi = c.frameBytes) ∧
      (∀ b : Byte, b.getLsbD 7 = true → (resyncCursor b t).ci = 0 ∧ (resyncCursor b t).bi = 0) ∧
      (∀ (b : Byte) (u : State), b.getLsbD 7 = false → consume b t = .next u →
        (t.ci = c.channels → u.ci = t.ci ∧ u.bi = t.bi) ∧
        (t.ci < c.channels → u.bi = t.bi + 1 ∧ t.ci ≤ u.ci ∧ u.ci ≤ t.ci + 1))
end

