-- ==== Sys2Proof/Laws/State.lean ====
section
/-! SUPPORT. Laws/State.lean: what each named update of the state does to each field, and the outcome
combinators. -/

namespace Sys2Proof.Machine

/-! ### setCommit -/

@[simp] theorem setCommit_cfg (b : Byte) (s : State) : (setCommit b s).cfg = s.cfg := rfl
@[simp] theorem setCommit_ci (b : Byte) (s : State) : (setCommit b s).ci = s.ci := rfl
@[simp] theorem setCommit_bi (b : Byte) (s : State) : (setCommit b s).bi = s.bi := rfl
@[simp] theorem setCommit_prev (b : Byte) (s : State) : (setCommit b s).prev = s.prev := rfl
@[simp] theorem setCommit_buf (b : Byte) (s : State) : (setCommit b s).buf = s.buf := rfl
@[simp] theorem setCommit_commit (b : Byte) (s : State) : (setCommit b s).commit = isMarker b := rfl
@[simp] theorem setCommit_loop (b : Byte) (s : State) : (setCommit b s).loop = s.loop := rfl
@[simp] theorem setCommit_rxq (b : Byte) (s : State) : (setCommit b s).rxq = s.rxq := rfl
@[simp] theorem setCommit_display (b : Byte) (s : State) : (setCommit b s).display = s.display := rfl
@[simp] theorem setCommit_sinkCalls (b : Byte) (s : State) : (setCommit b s).sinkCalls = s.sinkCalls := rfl
@[simp] theorem setCommit_encOut (b : Byte) (s : State) : (setCommit b s).encOut = s.encOut := rfl
@[simp] theorem setCommit_inputs (b : Byte) (s : State) : (setCommit b s).inputs = s.inputs := rfl
@[simp] theorem setCommit_env (b : Byte) (s : State) : (setCommit b s).env = s.env := rfl

/-! ### advance -/

@[simp] theorem advance_cfg (b : Byte) (s : State) : (advance b s).cfg = s.cfg := rfl
@[simp] theorem advance_ci (b : Byte) (s : State) : (advance b s).ci = s.ci := rfl
@[simp] theorem advance_bi (b : Byte) (s : State) : (advance b s).bi = s.bi + 1 := rfl
@[simp] theorem advance_prev (b : Byte) (s : State) : (advance b s).prev = some b := rfl
@[simp] theorem advance_buf (b : Byte) (s : State) : (advance b s).buf = s.buf := rfl
@[simp] theorem advance_commit (b : Byte) (s : State) : (advance b s).commit = s.commit := rfl
@[simp] theorem advance_loop (b : Byte) (s : State) : (advance b s).loop = s.loop := rfl
@[simp] theorem advance_rxq (b : Byte) (s : State) : (advance b s).rxq = s.rxq := rfl
@[simp] theorem advance_display (b : Byte) (s : State) : (advance b s).display = s.display := rfl
@[simp] theorem advance_sinkCalls (b : Byte) (s : State) : (advance b s).sinkCalls = s.sinkCalls := rfl
@[simp] theorem advance_encOut (b : Byte) (s : State) : (advance b s).encOut = s.encOut := rfl
@[simp] theorem advance_inputs (b : Byte) (s : State) : (advance b s).inputs = s.inputs := rfl
@[simp] theorem advance_env (b : Byte) (s : State) : (advance b s).env = s.env := rfl

/-! ### finishPayload -/

@[simp] theorem finishPayload_cfg (b : Byte) (s : State) : (finishPayload b s).cfg = s.cfg := rfl
@[simp] theorem finishPayload_ci (b : Byte) (s : State) : (finishPayload b s).ci = s.ci := rfl
@[simp] theorem finishPayload_bi (b : Byte) (s : State) : (finishPayload b s).bi = s.bi + 1 := rfl
@[simp] theorem finishPayload_prev (b : Byte) (s : State) : (finishPayload b s).prev = some b := rfl
@[simp] theorem finishPayload_buf (b : Byte) (s : State) : (finishPayload b s).buf = s.buf := rfl
@[simp] theorem finishPayload_commit (b : Byte) (s : State) : (finishPayload b s).commit = false := rfl
@[simp] theorem finishPayload_loop (b : Byte) (s : State) : (finishPayload b s).loop = s.loop := rfl
@[simp] theorem finishPayload_rxq (b : Byte) (s : State) : (finishPayload b s).rxq = s.rxq := rfl
@[simp] theorem finishPayload_display (b : Byte) (s : State) : (finishPayload b s).display = s.display := rfl
@[simp] theorem finishPayload_sinkCalls (b : Byte) (s : State) : (finishPayload b s).sinkCalls = s.sinkCalls := rfl
@[simp] theorem finishPayload_encOut (b : Byte) (s : State) : (finishPayload b s).encOut = s.encOut := rfl
@[simp] theorem finishPayload_inputs (b : Byte) (s : State) : (finishPayload b s).inputs = s.inputs := rfl
@[simp] theorem finishPayload_env (b : Byte) (s : State) : (finishPayload b s).env = s.env := rfl

/-! ### setRxq -/

@[simp] theorem setRxq_cfg (q : List Byte) (s : State) : (setRxq q s).cfg = s.cfg := rfl
@[simp] theorem setRxq_ci (q : List Byte) (s : State) : (setRxq q s).ci = s.ci := rfl
@[simp] theorem setRxq_bi (q : List Byte) (s : State) : (setRxq q s).bi = s.bi := rfl
@[simp] theorem setRxq_prev (q : List Byte) (s : State) : (setRxq q s).prev = s.prev := rfl
@[simp] theorem setRxq_buf (q : List Byte) (s : State) : (setRxq q s).buf = s.buf := rfl
@[simp] theorem setRxq_commit (q : List Byte) (s : State) : (setRxq q s).commit = s.commit := rfl
@[simp] theorem setRxq_loop (q : List Byte) (s : State) : (setRxq q s).loop = s.loop := rfl
@[simp] theorem setRxq_rxq (q : List Byte) (s : State) : (setRxq q s).rxq = q := rfl
@[simp] theorem setRxq_display (q : List Byte) (s : State) : (setRxq q s).display = s.display := rfl
@[simp] theorem setRxq_sinkCalls (q : List Byte) (s : State) : (setRxq q s).sinkCalls = s.sinkCalls := rfl
@[simp] theorem setRxq_encOut (q : List Byte) (s : State) : (setRxq q s).encOut = s.encOut := rfl
@[simp] theorem setRxq_inputs (q : List Byte) (s : State) : (setRxq q s).inputs = s.inputs := rfl
@[simp] theorem setRxq_env (q : List Byte) (s : State) : (setRxq q s).env = s.env := rfl

/-! ### setLoop -/

@[simp] theorem setLoop_cfg (p : LoopPos) (s : State) : (setLoop p s).cfg = s.cfg := rfl
@[simp] theorem setLoop_ci (p : LoopPos) (s : State) : (setLoop p s).ci = s.ci := rfl
@[simp] theorem setLoop_bi (p : LoopPos) (s : State) : (setLoop p s).bi = s.bi := rfl
@[simp] theorem setLoop_prev (p : LoopPos) (s : State) : (setLoop p s).prev = s.prev := rfl
@[simp] theorem setLoop_buf (p : LoopPos) (s : State) : (setLoop p s).buf = s.buf := rfl
@[simp] theorem setLoop_commit (p : LoopPos) (s : State) : (setLoop p s).commit = s.commit := rfl
@[simp] theorem setLoop_loop (p : LoopPos) (s : State) : (setLoop p s).loop = p := rfl
@[simp] theorem setLoop_rxq (p : LoopPos) (s : State) : (setLoop p s).rxq = s.rxq := rfl
@[simp] theorem setLoop_display (p : LoopPos) (s : State) : (setLoop p s).display = s.display := rfl
@[simp] theorem setLoop_sinkCalls (p : LoopPos) (s : State) : (setLoop p s).sinkCalls = s.sinkCalls := rfl
@[simp] theorem setLoop_encOut (p : LoopPos) (s : State) : (setLoop p s).encOut = s.encOut := rfl
@[simp] theorem setLoop_inputs (p : LoopPos) (s : State) : (setLoop p s).inputs = s.inputs := rfl
@[simp] theorem setLoop_env (p : LoopPos) (s : State) : (setLoop p s).env = s.env := rfl

/-! ### emitShow -/

@[simp] theorem emitShow_cfg (ws : List Byte) (s : State) : (emitShow ws s).cfg = s.cfg := rfl
@[simp] theorem emitShow_ci (ws : List Byte) (s : State) : (emitShow ws s).ci = s.ci := rfl
@[simp] theorem emitShow_bi (ws : List Byte) (s : State) : (emitShow ws s).bi = s.bi := rfl
@[simp] theorem emitShow_prev (ws : List Byte) (s : State) : (emitShow ws s).prev = s.prev := rfl
@[simp] theorem emitShow_buf (ws : List Byte) (s : State) : (emitShow ws s).buf = s.buf := rfl
@[simp] theorem emitShow_commit (ws : List Byte) (s : State) : (emitShow ws s).commit = s.commit := rfl
@[simp] theorem emitShow_loop (ws : List Byte) (s : State) : (emitShow ws s).loop = s.loop := rfl
@[simp] theorem emitShow_rxq (ws : List Byte) (s : State) : (emitShow ws s).rxq = s.rxq := rfl
@[simp] theorem emitShow_display (ws : List Byte) (s : State) : (emitShow ws s).display = s.display ++ [ws] := rfl
@[simp] theorem emitShow_sinkCalls (ws : List Byte) (s : State) : (emitShow ws s).sinkCalls = s.sinkCalls ++ showCalls ws := rfl
@[simp] theorem emitShow_encOut (ws : List Byte) (s : State) : (emitShow ws s).encOut = s.encOut := rfl
@[simp] theorem emitShow_inputs (ws : List Byte) (s : State) : (emitShow ws s).inputs = s.inputs := rfl
@[simp] theorem emitShow_env (ws : List Byte) (s : State) : (emitShow ws s).env = s.env := rfl

/-! ### placeByte -/

@[simp] theorem placeByte_cfg (b : Byte) (s : State) : (placeByte b s).cfg = s.cfg := rfl
@[simp] theorem placeByte_ci (b : Byte) (s : State) : (placeByte b s).ci = s.ci := rfl
@[simp] theorem placeByte_bi (b : Byte) (s : State) : (placeByte b s).bi = s.bi := rfl
@[simp] theorem placeByte_prev (b : Byte) (s : State) : (placeByte b s).prev = s.prev := rfl
@[simp] theorem placeByte_buf (b : Byte) (s : State) : (placeByte b s).buf = s.buf := rfl
@[simp] theorem placeByte_commit (b : Byte) (s : State) : (placeByte b s).commit = s.commit := rfl
@[simp] theorem placeByte_loop (b : Byte) (s : State) : (placeByte b s).loop = .consuming := rfl
@[simp] theorem placeByte_rxq (b : Byte) (s : State) : (placeByte b s).rxq = b :: s.rxq := rfl
@[simp] theorem placeByte_display (b : Byte) (s : State) : (placeByte b s).display = s.display := rfl
@[simp] theorem placeByte_sinkCalls (b : Byte) (s : State) : (placeByte b s).sinkCalls = s.sinkCalls := rfl
@[simp] theorem placeByte_encOut (b : Byte) (s : State) : (placeByte b s).encOut = s.encOut := rfl
@[simp] theorem placeByte_inputs (b : Byte) (s : State) : (placeByte b s).inputs = .loop :: s.inputs := rfl
@[simp] theorem placeByte_env (b : Byte) (s : State) : (placeByte b s).env = s.env := rfl

/-! ### setSchedule -/

@[simp] theorem setSchedule_cfg (ts : List Turn) (e : Environment) (s : State) :
    (setSchedule ts e s).cfg = s.cfg := rfl
@[simp] theorem setSchedule_ci (ts : List Turn) (e : Environment) (s : State) :
    (setSchedule ts e s).ci = s.ci := rfl
@[simp] theorem setSchedule_bi (ts : List Turn) (e : Environment) (s : State) :
    (setSchedule ts e s).bi = s.bi := rfl
@[simp] theorem setSchedule_prev (ts : List Turn) (e : Environment) (s : State) :
    (setSchedule ts e s).prev = s.prev := rfl
@[simp] theorem setSchedule_buf (ts : List Turn) (e : Environment) (s : State) :
    (setSchedule ts e s).buf = s.buf := rfl
@[simp] theorem setSchedule_commit (ts : List Turn) (e : Environment) (s : State) :
    (setSchedule ts e s).commit = s.commit := rfl
@[simp] theorem setSchedule_loop (ts : List Turn) (e : Environment) (s : State) :
    (setSchedule ts e s).loop = s.loop := rfl
@[simp] theorem setSchedule_rxq (ts : List Turn) (e : Environment) (s : State) :
    (setSchedule ts e s).rxq = s.rxq := rfl
@[simp] theorem setSchedule_display (ts : List Turn) (e : Environment) (s : State) :
    (setSchedule ts e s).display = s.display := rfl
@[simp] theorem setSchedule_sinkCalls (ts : List Turn) (e : Environment) (s : State) :
    (setSchedule ts e s).sinkCalls = s.sinkCalls := rfl
@[simp] theorem setSchedule_encOut (ts : List Turn) (e : Environment) (s : State) :
    (setSchedule ts e s).encOut = s.encOut := rfl
@[simp] theorem setSchedule_inputs (ts : List Turn) (e : Environment) (s : State) :
    (setSchedule ts e s).inputs = ts := rfl
@[simp] theorem setSchedule_env (ts : List Turn) (e : Environment) (s : State) :
    (setSchedule ts e s).env = e := rfl

/-! ### forgetOutputs -/

@[simp] theorem forgetOutputs_cfg (s : State) : (forgetOutputs s).cfg = s.cfg := rfl
@[simp] theorem forgetOutputs_ci (s : State) : (forgetOutputs s).ci = s.ci := rfl
@[simp] theorem forgetOutputs_bi (s : State) : (forgetOutputs s).bi = s.bi := rfl
@[simp] theorem forgetOutputs_prev (s : State) : (forgetOutputs s).prev = s.prev := rfl
@[simp] theorem forgetOutputs_buf (s : State) : (forgetOutputs s).buf = s.buf := rfl
@[simp] theorem forgetOutputs_commit (s : State) : (forgetOutputs s).commit = s.commit := rfl
@[simp] theorem forgetOutputs_loop (s : State) : (forgetOutputs s).loop = s.loop := rfl
@[simp] theorem forgetOutputs_rxq (s : State) : (forgetOutputs s).rxq = s.rxq := rfl
@[simp] theorem forgetOutputs_display (s : State) : (forgetOutputs s).display = [] := rfl
@[simp] theorem forgetOutputs_sinkCalls (s : State) : (forgetOutputs s).sinkCalls = [] := rfl
@[simp] theorem forgetOutputs_encOut (s : State) : (forgetOutputs s).encOut = [] := rfl
@[simp] theorem forgetOutputs_inputs (s : State) : (forgetOutputs s).inputs = s.inputs := rfl
@[simp] theorem forgetOutputs_env (s : State) : (forgetOutputs s).env = s.env := rfl

/-! ### resyncCursor -/

@[simp] theorem resyncCursor_cfg (b : Byte) (s : State) : (resyncCursor b s).cfg = s.cfg := by
  unfold resyncCursor; split <;> rfl
@[simp] theorem resyncCursor_ci (b : Byte) (s : State) : (resyncCursor b s).ci = if isMarker b then 0 else s.ci := by
  unfold resyncCursor; split <;> rfl
@[simp] theorem resyncCursor_bi (b : Byte) (s : State) : (resyncCursor b s).bi = if isMarker b then 0 else s.bi := by
  unfold resyncCursor; split <;> rfl
@[simp] theorem resyncCursor_prev (b : Byte) (s : State) : (resyncCursor b s).prev = s.prev := by
  unfold resyncCursor; split <;> rfl
@[simp] theorem resyncCursor_buf (b : Byte) (s : State) : (resyncCursor b s).buf = s.buf := by
  unfold resyncCursor; split <;> rfl
@[simp] theorem resyncCursor_commit (b : Byte) (s : State) : (resyncCursor b s).commit = s.commit := by
  unfold resyncCursor; split <;> rfl
@[simp] theorem resyncCursor_loop (b : Byte) (s : State) : (resyncCursor b s).loop = s.loop := by
  unfold resyncCursor; split <;> rfl
@[simp] theorem resyncCursor_rxq (b : Byte) (s : State) : (resyncCursor b s).rxq = s.rxq := by
  unfold resyncCursor; split <;> rfl
@[simp] theorem resyncCursor_display (b : Byte) (s : State) : (resyncCursor b s).display = s.display := by
  unfold resyncCursor; split <;> rfl
@[simp] theorem resyncCursor_sinkCalls (b : Byte) (s : State) : (resyncCursor b s).sinkCalls = s.sinkCalls := by
  unfold resyncCursor; split <;> rfl
@[simp] theorem resyncCursor_encOut (b : Byte) (s : State) : (resyncCursor b s).encOut = s.encOut := by
  unfold resyncCursor; split <;> rfl
@[simp] theorem resyncCursor_inputs (b : Byte) (s : State) : (resyncCursor b s).inputs = s.inputs := by
  unfold resyncCursor; split <;> rfl
@[simp] theorem resyncCursor_env (b : Byte) (s : State) : (resyncCursor b s).env = s.env := by
  unfold resyncCursor; split <;> rfl

/-! ### leaveOnCommit -/

@[simp] theorem leaveOnCommit_cfg (s : State) : (leaveOnCommit s).cfg = s.cfg := by
  unfold leaveOnCommit; split <;> rfl
@[simp] theorem leaveOnCommit_ci (s : State) : (leaveOnCommit s).ci = s.ci := by
  unfold leaveOnCommit; split <;> rfl
@[simp] theorem leaveOnCommit_bi (s : State) : (leaveOnCommit s).bi = s.bi := by
  unfold leaveOnCommit; split <;> rfl
@[simp] theorem leaveOnCommit_prev (s : State) : (leaveOnCommit s).prev = s.prev := by
  unfold leaveOnCommit; split <;> rfl
@[simp] theorem leaveOnCommit_buf (s : State) : (leaveOnCommit s).buf = s.buf := by
  unfold leaveOnCommit; split <;> rfl
@[simp] theorem leaveOnCommit_commit (s : State) : (leaveOnCommit s).commit = s.commit := by
  unfold leaveOnCommit; split <;> rfl
@[simp] theorem leaveOnCommit_loop (s : State) : (leaveOnCommit s).loop = if s.commit then .showing else s.loop := by
  unfold leaveOnCommit; split <;> rfl
@[simp] theorem leaveOnCommit_rxq (s : State) : (leaveOnCommit s).rxq = s.rxq := by
  unfold leaveOnCommit; split <;> rfl
@[simp] theorem leaveOnCommit_display (s : State) : (leaveOnCommit s).display = s.display := by
  unfold leaveOnCommit; split <;> rfl
@[simp] theorem leaveOnCommit_sinkCalls (s : State) : (leaveOnCommit s).sinkCalls = s.sinkCalls := by
  unfold leaveOnCommit; split <;> rfl
@[simp] theorem leaveOnCommit_encOut (s : State) : (leaveOnCommit s).encOut = s.encOut := by
  unfold leaveOnCommit; split <;> rfl
@[simp] theorem leaveOnCommit_inputs (s : State) : (leaveOnCommit s).inputs = s.inputs := by
  unfold leaveOnCommit; split <;> rfl
@[simp] theorem leaveOnCommit_env (s : State) : (leaveOnCommit s).env = s.env := by
  unfold leaveOnCommit; split <;> rfl

/-! ### Outcomes -/

@[simp] theorem andThen_next (s : State) (k : State → Result) : andThen (.next s) k = k s := rfl
@[simp] theorem andThen_fault (f : Fault) (k : State → Result) : andThen (.fault f) k = .fault f := rfl
@[simp] theorem andThen_refused (r : Refusal) (k : State → Result) :
    andThen (.refused r) k = .refused r := rfl
@[simp] theorem mapNext_next (s : State) (f : State → State) : mapNext (.next s) f = .next (f s) := rfl
@[simp] theorem mapNext_fault (e : Fault) (f : State → State) : mapNext (.fault e) f = .fault e := rfl
@[simp] theorem mapNext_refused (r : Refusal) (f : State → State) :
    mapNext (.refused r) f = .refused r := rfl

/-- A sequence answers a next state only through one of its first part. -/
theorem andThen_eq_next {o : Result} {k : State → Result} {t : State} (h : andThen o k = .next t) :
    ∃ s, o = .next s ∧ k s = .next t := by
  cases o with
  | next s => exact ⟨s, rfl, h⟩
  | fault f => cases h
  | refused r => cases h

theorem mapNext_eq_next {o : Result} {f : State → State} {t : State} (h : mapNext o f = .next t) :
    ∃ s, o = .next s ∧ f s = t := by
  obtain ⟨s, hs, ht⟩ := andThen_eq_next h
  exact ⟨s, hs, by injection ht⟩

/-- Sequencing is associative. -/
theorem andThen_assoc (o : Result) (k l : State → Result) :
    andThen (andThen o k) l = andThen o fun s => andThen (k s) l := by
  cases o <;> rfl

/-- Consuming a concatenation is consuming its parts in turn. -/
theorem consumeAll_append (xs ys : List Byte) (s : State) :
    consumeAll (xs ++ ys) s = andThen (consumeAll xs s) (consumeAll ys) := by
  induction xs generalizing s with
  | nil => rfl
  | cons x xs ih =>
    simp only [List.cons_append, consumeAll, andThen_assoc]
    congr 1
    exact funext ih

/-! ### Configuration and row checks -/

theorem configRefusal_of_valid {c : Config} (h : c.Valid) : configRefusal c = none := by
  have h0 : c.chipCount ≠ 0 := by have := h.1; omega
  simp [configRefusal, h0, h.2]

theorem configRefusal_eq_none {c : Config} (h : configRefusal c = none) : c.Valid := by
  unfold configRefusal at h
  split at h
  · cases h
  · split at h
    · exact ⟨by omega, ‹_›⟩
    · cases h

theorem requireConfig_of_valid {c : Config} (h : c.Valid) (o : Result) :
    requireConfig c o = o := by
  simp [requireConfig, configRefusal_of_valid h]

/-- An operation that answers a next state ran under a valid configuration. -/
theorem requireConfig_eq_next {c : Config} {o : Result} {t : State}
    (h : requireConfig c o = .next t) : c.Valid ∧ o = .next t := by
  unfold requireConfig at h
  split at h
  · cases h
  · exact ⟨configRefusal_eq_none ‹_›, h⟩

@[simp] theorem requireRow_true (o : Result) : requireRow true o = o := rfl
@[simp] theorem requireRow_false (o : Result) : requireRow false o = .refused .notSelected := rfl

theorem requireRow_eq_next {row : Bool} {o : Result} {t : State}
    (h : requireRow row o = .next t) : row = true ∧ o = .next t := by
  cases row
  · cases h
  · exact ⟨rfl, h⟩

theorem channels_pos {c : Config} (h : c.Valid) : 0 < c.channels := by
  have := h.1; unfold Config.channels; omega

end Sys2Proof.Machine
end

