-- ==== Sys2Proof/Laws/Memory.lean ====
section
/-! SUPPORT. Laws/Memory.lean: the laws of the Channel Buffer: read after write, the frame of a write,
and that every memory operation keeps the canonical form. -/

namespace Sys2Proof.Machine

/-! ### The list of cells -/

/-- Indices strictly rising. -/
abbrev Rising (m : Memory) : Prop := m.Pairwise fun x y => x.1 < y.1

theorem cellLookup_insert_same (m : Memory) (i : Nat) (v : Byte) :
    cellLookup (cellInsert m i v) i = some v := by
  induction m with
  | nil => simp [cellInsert, cellLookup]
  | cons x m ih =>
    unfold cellInsert
    split
    · have hx : x.1 ≠ i := by omega
      simp [cellLookup, hx, ih]
    · split <;> simp [cellLookup]

theorem cellLookup_insert_other (m : Memory) {i j : Nat} (v : Byte) (h : j ≠ i) :
    cellLookup (cellInsert m i v) j = cellLookup m j := by
  have h' : i ≠ j := fun e => h e.symm
  induction m with
  | nil => simp [cellInsert, cellLookup, h']
  | cons x m ih =>
    unfold cellInsert
    split
    · simp [cellLookup, ih]
    · split
      · rename_i _ hx
        simp [cellLookup, h', hx]
      · simp [cellLookup, h']

theorem cellLookup_erase_other (m : Memory) {i j : Nat} (h : j ≠ i) :
    cellLookup (cellErase m i) j = cellLookup m j := by
  induction m with
  | nil => rfl
  | cons x m ih =>
    unfold cellErase
    split
    · rename_i hx
      have : x.1 ≠ j := by omega
      simp [cellLookup, this, ih]
    · simp [cellLookup, ih]

theorem cellLookup_erase_same (m : Memory) (i : Nat) : cellLookup (cellErase m i) i = none := by
  induction m with
  | nil => rfl
  | cons x m ih =>
    unfold cellErase
    split
    · exact ih
    · rename_i hx
      simp [cellLookup, hx, ih]

theorem mem_cellInsert {m : Memory} {i : Nat} {v : Byte} {x : Host.Cell}
    (h : x ∈ cellInsert m i v) : x = (i, v) ∨ x ∈ m := by
  induction m with
  | nil => simpa [cellInsert] using h
  | cons y m ih =>
    unfold cellInsert at h
    split at h
    · rcases List.mem_cons.mp h with h | h
      · exact .inr (by simp [h])
      · rcases ih h with h | h
        · exact .inl h
        · exact .inr (by simp [h])
    · split at h <;> simp at h ⊢ <;> tauto

theorem mem_cellErase {m : Memory} {i : Nat} {x : Host.Cell} (h : x ∈ cellErase m i) : x ∈ m := by
  induction m with
  | nil => simp [cellErase] at h
  | cons y m ih =>
    unfold cellErase at h
    split at h
    · exact List.mem_cons_of_mem _ (ih h)
    · rcases List.mem_cons.mp h with h | h
      · simp [h]
      · exact List.mem_cons_of_mem _ (ih h)

theorem rising_cellInsert {m : Memory} (hm : Rising m) (i : Nat) (v : Byte) :
    Rising (cellInsert m i v) := by
  induction m with
  | nil => simp [cellInsert, Rising]
  | cons x m ih =>
    rw [Rising, List.pairwise_cons] at hm
    unfold cellInsert
    split
    · refine List.pairwise_cons.mpr ⟨fun y hy => ?_, ih hm.2⟩
      rcases mem_cellInsert hy with rfl | hy
      · assumption
      · exact hm.1 y hy
    · split
      · exact List.pairwise_cons.mpr ⟨fun y hy => by have := hm.1 y hy; simp only; omega, hm.2⟩
      · refine List.pairwise_cons.mpr ⟨fun y hy => ?_, List.pairwise_cons.mpr hm⟩
        rcases List.mem_cons.mp hy with rfl | hy
        · simp only; omega
        · have := hm.1 y hy; simp only; omega

theorem rising_cellErase {m : Memory} (hm : Rising m) (i : Nat) : Rising (cellErase m i) := by
  induction m with
  | nil => exact hm
  | cons x m ih =>
    rw [Rising, List.pairwise_cons] at hm
    unfold cellErase
    split
    · exact ih hm.2
    · exact List.pairwise_cons.mpr ⟨fun y hy => hm.1 y (mem_cellErase hy), ih hm.2⟩

/-! ### The canonical form -/

theorem wf_iff {c : Config} {m : Memory} :
    Memory.wf c m = true ↔
      Rising m ∧ ∀ x ∈ m, x.1 < c.channels ∧ unlistedCell c x.1 ≠ some x.2 := by
  simp [Memory.wf, Rising]

@[simp] theorem wf_nil (c : Config) : Memory.wf c [] = true := by simp [wf_iff, Rising]

/-- A write keeps the canonical form. -/
theorem wf_memWrite {c : Config} {m m' : Memory} {i : Nat} {v : Byte}
    (hm : Memory.wf c m = true) (h : memWrite c m i v = some m') : Memory.wf c m' = true := by
  obtain ⟨hr, hx⟩ := wf_iff.mp hm
  unfold memWrite at h
  split at h
  · obtain rfl := Option.some.inj h
    split
    · exact wf_iff.mpr ⟨rising_cellErase hr i, fun x hx' => hx x (mem_cellErase hx')⟩
    · refine wf_iff.mpr ⟨rising_cellInsert hr i v, fun x hx' => ?_⟩
      rcases mem_cellInsert hx' with rfl | hx'
      · exact ⟨by assumption, by assumption⟩
      · exact hx x hx'
  · cases h

/-! ### Reads and writes -/

theorem memRead_of_ge {c : Config} {m : Memory} {i : Nat} (h : c.channels ≤ i) :
    memRead c m i = none := by
  simp [memRead, Nat.not_lt.mpr h]

/-- Every cell of the buffer holds a value under a valid configuration. -/
theorem memRead_isSome {c : Config} (hc : c.Valid) (m : Memory) {i : Nat} (h : i < c.channels) :
    ∃ v, memRead c m i = some v := by
  unfold memRead unlistedCell
  rw [if_pos h]
  cases cellLookup m i with
  | some v => exact ⟨v, rfl⟩
  | none => exact ⟨_, List.getElem?_eq_getElem (by rw [hc.2]; exact h)⟩

/-- A write to an existing cell succeeds. -/
theorem memWrite_isSome {c : Config} (m : Memory) {i : Nat} (v : Byte) (h : i < c.channels) :
    ∃ m', memWrite c m i v = some m' := by
  simp [memWrite, h]

theorem lt_of_memWrite {c : Config} {m m' : Memory} {i : Nat} {v : Byte}
    (h : memWrite c m i v = some m') : i < c.channels := by
  by_contra hn
  simp [memWrite, hn] at h

/-- Read after write, same cell. -/
theorem memRead_memWrite_same {c : Config} {m m' : Memory} {i : Nat} {v : Byte}
    (h : memWrite c m i v = some m') : memRead c m' i = some v := by
  have hi := lt_of_memWrite h
  simp only [memWrite, if_pos hi, Option.some.injEq] at h
  subst h
  split
  · rename_i hu
    simp [memRead, hi, cellLookup_erase_same, hu]
  · simp [memRead, hi, cellLookup_insert_same]

/-- A write leaves every other cell alone. -/
theorem memRead_memWrite_other {c : Config} {m m' : Memory} {i j : Nat} {v : Byte} (hj : j ≠ i)
    (h : memWrite c m i v = some m') : memRead c m' j = memRead c m j := by
  have hi := lt_of_memWrite h
  simp only [memWrite, if_pos hi, Option.some.injEq] at h
  subst h
  unfold memRead
  congr 1
  by_cases hu : unlistedCell c i = some v
  · rw [if_pos hu, cellLookup_erase_other m hj]
  · rw [if_neg hu, cellLookup_insert_other m v hj]

/-! ### Snapshots -/

theorem readCells_eq_some {c : Config} {m : Memory} {is : List Nat} {ws : List Byte}
    (h : readCells c m is = some ws) :
    ws.length = is.length ∧ ∀ k : Nat, ws[k]? = (is[k]?).bind (memRead c m) := by
  induction is generalizing ws with
  | nil =>
    obtain rfl := Option.some.inj h
    simp
  | cons i is ih =>
    unfold readCells at h
    split at h
    · rename_i v vs hv hvs
      obtain rfl := Option.some.inj h
      obtain ⟨hl, hk⟩ := ih hvs
      refine ⟨by simp [hl], fun k => ?_⟩
      cases k with
      | zero => simp [hv]
      | succ k => simpa using hk k
    · cases h

theorem readCells_isSome {c : Config} (hc : c.Valid) (m : Memory) {is : List Nat}
    (h : ∀ i ∈ is, i < c.channels) : ∃ ws, readCells c m is = some ws := by
  induction is with
  | nil => exact ⟨[], rfl⟩
  | cons i is ih =>
    obtain ⟨v, hv⟩ := memRead_isSome hc m (h i (by simp))
    obtain ⟨vs, hvs⟩ := ih fun j hj => h j (by simp [hj])
    exact ⟨v :: vs, by simp [readCells, hv, hvs]⟩

/-- Under a valid configuration the buffer can be presented. -/
theorem snapshot_isSome {s : State} (hc : s.cfg.Valid) : ∃ ws, snapshot s = some ws :=
  readCells_isSome hc _ (by simp)

/-- A snapshot is the whole buffer in index order (20_memory R54). -/
theorem snapshot_spec {s : State} {ws : List Byte} (h : snapshot s = some ws) :
    ws.length = s.cfg.channels ∧ ∀ i : Nat, ws[i]? = memRead s.cfg s.buf i := by
  obtain ⟨hl, hk⟩ := readCells_eq_some h
  have hl' : ws.length = s.cfg.channels := by simpa using hl
  refine ⟨hl', fun i => ?_⟩
  by_cases hi : i < s.cfg.channels
  · simpa [hi] using hk i
  · rw [memRead_of_ge (by omega), List.getElem?_eq_none (by omega)]

/-- Two lists that read as the same buffer are the same snapshot. -/
theorem snapshot_eq {s : State} {ws vs : List Byte} (h : snapshot s = some ws)
    (hv : ∀ i : Nat, vs[i]? = memRead s.cfg s.buf i) : ws = vs :=
  List.ext_getElem? fun i => by rw [(snapshot_spec h).2 i, hv i]

theorem snapshot_congr {s t : State} (hc : t.cfg = s.cfg) (hb : t.buf = s.buf) :
    snapshot t = snapshot s := by
  unfold snapshot; rw [hc, hb]

end Sys2Proof.Machine
end

