-- ==== Sys2Proof/Laws/Decoder.lean ====
section
/-! SUPPORT. Laws/Decoder.lean: what the shared decoder operations can do, said once: completing a
channel, and `CONSUME(b)` by its paths. -/

namespace Sys2Proof.Machine

/-! ### Phase -/

theorem phaseOf_cases (bi : Nat) :
    (bi % 4 = 0 ∧ phaseOf bi = .p0) ∨ (bi % 4 = 1 ∧ phaseOf bi = .p1) ∨
      (bi % 4 = 2 ∧ phaseOf bi = .p2) ∨ (bi % 4 = 3 ∧ phaseOf bi = .p3) := by
  have h : bi % 4 < 4 := Nat.mod_lt _ (by decide)
  unfold phaseOf
  rcases hb : bi % 4 with _ | _ | _ | _ | n
  · simp
  · simp
  · simp
  · simp
  · omega

theorem phaseOf_eq_p0 {bi : Nat} : phaseOf bi = .p0 ↔ bi % 4 = 0 := by
  rcases phaseOf_cases bi with h | h | h | h <;> simp [h.1, h.2]

theorem phaseOf_eq_p1 {bi : Nat} : phaseOf bi = .p1 ↔ bi % 4 = 1 := by
  rcases phaseOf_cases bi with h | h | h | h <;> simp [h.1, h.2]

theorem phaseOf_eq_p2 {bi : Nat} : phaseOf bi = .p2 ↔ bi % 4 = 2 := by
  rcases phaseOf_cases bi with h | h | h | h <;> simp [h.1, h.2]

theorem phaseOf_eq_p3 {bi : Nat} : phaseOf bi = .p3 ↔ bi % 4 = 3 := by
  rcases phaseOf_cases bi with h | h | h | h <;> simp [h.1, h.2]

@[simp] theorem gateOpen_eq_true {s : State} : gateOpen s = true ↔ s.ci < s.cfg.channels := by
  simp [gateOpen]

@[simp] theorem isFull_eq_true {s : State} : isFull s = true ↔ s.ci = s.cfg.channels := by
  simp [isFull]

/-! ### Completing a channel -/

/-- With `PREV` written and the gate open, one cell is written at `CI` and `CI` rises. -/
theorem completeChannel_next {s : State} {p : Byte} (f : Byte → Byte) (hp : s.prev = some p)
    (hci : s.ci < s.cfg.channels) :
    ∃ m, memWrite s.cfg s.buf s.ci (f p) = some m ∧
      completeChannel f s = .next { s with buf := m, ci := s.ci + 1 } := by
  obtain ⟨m, hm⟩ := memWrite_isSome s.buf (f p) hci
  exact ⟨m, hm, by simp [completeChannel, hp, hm]⟩

/-- All that completing a channel can do when it answers a next state. -/
theorem completeChannel_eq_next {f : Byte → Byte} {s t : State}
    (h : completeChannel f s = .next t) :
    ∃ p m, s.prev = some p ∧ memWrite s.cfg s.buf s.ci (f p) = some m ∧
      t = { s with buf := m, ci := s.ci + 1 } := by
  unfold completeChannel at h
  split at h
  · cases h
  · rename_i p hp
    split at h
    · cases h
    · rename_i m hm
      exact ⟨p, m, hp, hm, by injection h with h; exact h.symm⟩

theorem completeChannel_fault {f : Byte → Byte} {s : State} (hp : s.prev = none) :
    completeChannel f s = .fault .prevUnwritten := by
  simp [completeChannel, hp]

/-! ### `CONSUME(b)` by its paths (41_decoder R131) -/

/-- The value a gated byte completes at a phase other than 0. -/
def completedValue (ph : Phase) (p b : Byte) : Byte :=
  match ph with
  | .p0 => 0
  | .p1 => assembleR p b
  | .p2 => assembleG p b
  | .p3 => assembleB p b

theorem phaseAction_p0 {b : Byte} {s : State} (h : phase s = .p0) : phaseAction b s = .next s := by
  simp [phaseAction, h]

theorem phaseAction_complete {b : Byte} {s : State} (h : phase s ≠ .p0) :
    phaseAction b s = completeChannel (fun p => completedValue (phase s) p b) s := by
  unfold phaseAction
  split <;> simp_all [completedValue]

theorem consume_marker {b : Byte} {s : State} (hc : s.cfg.Valid) (hb : isMarker b = true) :
    consume b s = .next { s with ci := 0, bi := 1, prev := some b, commit := true } := by
  have h := channels_pos hc
  simp [consume, requireConfig_of_valid hc, resyncCursor, hb, gatedParse, gateOpen, h, phaseAction, phase, phaseOf,
    advance, setCommit]

theorem consume_closed {b : Byte} {s : State} (hc : s.cfg.Valid) (hb : isMarker b = false)
    (hg : s.cfg.channels ≤ s.ci) : consume b s = .next { s with commit := false } := by
  simp [consume, requireConfig_of_valid hc, resyncCursor, hb, gatedParse, gateOpen, Nat.not_lt.mpr hg, setCommit]

theorem consume_phase0 {b : Byte} {s : State} (hc : s.cfg.Valid) (hb : isMarker b = false)
    (hg : s.ci < s.cfg.channels) (hp : phase s = .p0) :
    consume b s = .next { s with bi := s.bi + 1, prev := some b, commit := false } := by
  simp [consume, requireConfig_of_valid hc, resyncCursor, hb, gatedParse, gateOpen, hg, phaseAction_p0 hp, advance, setCommit]

theorem consume_complete {b : Byte} {s : State} (hc : s.cfg.Valid) (hb : isMarker b = false)
    (hg : s.ci < s.cfg.channels) (hp : phase s ≠ .p0) :
    consume b s =
      mapNext (completeChannel (fun p => completedValue (phase s) p b) s)
        fun t => { t with bi := t.bi + 1, prev := some b, commit := false } := by
  simp only [consume, requireConfig_of_valid hc, resyncCursor, hb, gatedParse, gateOpen, hg,
    phaseAction_complete hp, decide_true, if_true, Bool.false_eq_true, if_false]
  cases completeChannel (fun p => completedValue (phase s) p b) s <;> simp [advance, setCommit, hb]

/-- All that `CONSUME` can do when it answers a next state: a resync, a dropped byte, a phase-0 byte,
or one completed channel. -/
theorem consume_cases {b : Byte} {s t : State} (h : consume b s = .next t) :
    s.cfg.Valid ∧
      ((isMarker b = true ∧ t = { s with ci := 0, bi := 1, prev := some b, commit := true }) ∨
        (isMarker b = false ∧ s.cfg.channels ≤ s.ci ∧ t = { s with commit := false }) ∨
        (isMarker b = false ∧ s.ci < s.cfg.channels ∧ phase s = .p0 ∧
          t = { s with bi := s.bi + 1, prev := some b, commit := false }) ∨
        (isMarker b = false ∧ s.ci < s.cfg.channels ∧ phase s ≠ .p0 ∧
          ∃ p m, s.prev = some p ∧
            memWrite s.cfg s.buf s.ci (completedValue (phase s) p b) = some m ∧
            t = { s with buf := m, ci := s.ci + 1, bi := s.bi + 1, prev := some b,
                         commit := false })) := by
  have hc : s.cfg.Valid := (requireConfig_eq_next h).1
  refine ⟨hc, ?_⟩
  by_cases hb : isMarker b = true
  · rw [consume_marker hc hb] at h
    exact .inl ⟨hb, by injection h with h; exact h.symm⟩
  · rw [Bool.not_eq_true] at hb
    by_cases hg : s.ci < s.cfg.channels
    · by_cases hp : phase s = .p0
      · rw [consume_phase0 hc hb hg hp] at h
        exact .inr (.inr (.inl ⟨hb, hg, hp, by injection h with h; exact h.symm⟩))
      · rw [consume_complete hc hb hg hp] at h
        obtain ⟨u, hu, rfl⟩ := mapNext_eq_next h
        obtain ⟨p, m, hprev, hm, rfl⟩ := completeChannel_eq_next hu
        exact .inr (.inr (.inr ⟨hb, hg, hp, p, m, hprev, hm, rfl⟩))
    · have hg' := Nat.not_lt.mp hg
      rw [consume_closed hc hb hg'] at h
      exact .inr (.inl ⟨hb, hg', by injection h with h; exact h.symm⟩)

/-! ### What `CONSUME` neither reads nor writes -/

/-- What no `CONSUME` touches. -/
theorem consume_frame {b : Byte} {s t : State} (h : consume b s = .next t) :
    t.cfg = s.cfg ∧ t.loop = s.loop ∧ t.rxq = s.rxq ∧ t.display = s.display ∧
      t.sinkCalls = s.sinkCalls ∧ t.encOut = s.encOut ∧ t.inputs = s.inputs ∧ t.env = s.env := by
  obtain ⟨-, ⟨-, rfl⟩ | ⟨-, -, rfl⟩ | ⟨-, -, -, rfl⟩ | ⟨-, -, -, p, m, -, -, rfl⟩⟩ :=
    consume_cases h <;> simp

theorem consume_commit {b : Byte} {s t : State} (h : consume b s = .next t) :
    t.commit = isMarker b := by
  obtain ⟨-, ⟨hb, rfl⟩ | ⟨hb, -, rfl⟩ | ⟨hb, -, -, rfl⟩ | ⟨hb, -, -, p, m, -, -, rfl⟩⟩ :=
    consume_cases h <;> simp [hb]

/-- A state with every field outside the decoder and its configuration replaced. -/
def withOuter (l : LoopPos) (q : List Byte) (d : List (List Byte)) (c : List SinkCall)
    (e : List Byte) (i : List Turn) (n : Environment) (s : State) : State :=
  { s with loop := l, rxq := q, display := d, sinkCalls := c, encOut := e, inputs := i, env := n }

@[simp] theorem phase_withOuter (l q d c e i n) (s : State) :
    phase (withOuter l q d c e i n s) = phase s := rfl

theorem completeChannel_withOuter (f : Byte → Byte) (l q d c e i n) (s : State) :
    completeChannel f (withOuter l q d c e i n s) =
      mapNext (completeChannel f s) (withOuter l q d c e i n) := by
  simp only [completeChannel, withOuter]
  split
  · rfl
  · split <;> rfl

/-- `CONSUME` commutes with any change of the fields it does not use. -/
theorem consume_withOuter (b : Byte) (l q d c e i n) (s : State) :
    consume b (withOuter l q d c e i n s) = mapNext (consume b s) (withOuter l q d c e i n) := by
  by_cases hc : s.cfg.Valid
  · by_cases hb : isMarker b = true
    · rw [consume_marker hc hb, consume_marker (s := withOuter l q d c e i n s) hc hb]; rfl
    · rw [Bool.not_eq_true] at hb
      by_cases hg : s.ci < s.cfg.channels
      · by_cases hp : phase s = .p0
        · rw [consume_phase0 hc hb hg hp,
            consume_phase0 (s := withOuter l q d c e i n s) hc hb hg hp]; rfl
        · rw [consume_complete hc hb hg hp,
            consume_complete (s := withOuter l q d c e i n s) hc hb hg hp, phase_withOuter,
            completeChannel_withOuter]
          cases completeChannel (fun p => completedValue (phase s) p b) s <;> rfl
      · rw [consume_closed hc hb (Nat.not_lt.mp hg),
          consume_closed (s := withOuter l q d c e i n s) hc hb (Nat.not_lt.mp hg)]; rfl
  · cases hr : configRefusal s.cfg with
    | none => exact absurd (configRefusal_eq_none hr) hc
    | some r => simp [consume, requireConfig, withOuter, hr]

theorem consumeAll_withOuter (bs : List Byte) (l q d c e i n) (s : State) :
    consumeAll bs (withOuter l q d c e i n s) =
      mapNext (consumeAll bs s) (withOuter l q d c e i n) := by
  induction bs generalizing s with
  | nil => rfl
  | cons b bs ih =>
    simp only [consumeAll, consume_withOuter]
    cases consume b s <;> simp [ih]

theorem consume_setRxq (b : Byte) (q : List Byte) (s : State) :
    consume b (setRxq q s) = mapNext (consume b s) (setRxq q) := by
  have h := consume_withOuter b s.loop q s.display s.sinkCalls s.encOut s.inputs s.env s
  rw [show setRxq q s = withOuter s.loop q s.display s.sinkCalls s.encOut s.inputs s.env s from rfl, h]
  cases ht : consume b s with
  | fault f => rfl
  | refused r => rfl
  | next t =>
    obtain ⟨-, h2, -, h4, h5, h6, h7, h8⟩ := consume_frame ht
    simp only [mapNext_next, withOuter, setRxq, h2, h4, h5, h6, h7, h8]

theorem consumeAll_setRxq (bs : List Byte) (q : List Byte) (s : State) :
    consumeAll bs (setRxq q s) = mapNext (consumeAll bs s) (setRxq q) := by
  induction bs generalizing s with
  | nil => rfl
  | cons b bs ih =>
    simp only [consumeAll, consume_setRxq]
    cases consume b s <;> simp [ih]

/-- What consuming a sequence never touches. -/
theorem consumeAll_frame {bs : List Byte} {s t : State} (h : consumeAll bs s = .next t) :
    t.cfg = s.cfg ∧ t.loop = s.loop ∧ t.rxq = s.rxq ∧ t.display = s.display ∧
      t.sinkCalls = s.sinkCalls ∧ t.encOut = s.encOut ∧ t.inputs = s.inputs ∧ t.env = s.env := by
  induction bs generalizing s with
  | nil => injection h with h; subst h; simp
  | cons b bs ih =>
    obtain ⟨u, hu, ht⟩ := andThen_eq_next h
    obtain ⟨a1, a2, a3, a4, a5, a6, a7, a8⟩ := consume_frame hu
    obtain ⟨b1, b2, b3, b4, b5, b6, b7, b8⟩ := ih ht
    exact ⟨b1.trans a1, b2.trans a2, b3.trans a3, b4.trans a4, b5.trans a5, b6.trans a6, b7.trans a7,
      b8.trans a8⟩

/-! ### The invariant under `CONSUME` -/

/-- `CONSUME` keeps the cursor's invariant (10_state R34 to R36). -/
theorem consume_keeps_cursorInv {b : Byte} {s t : State} (h : consume b s = .next t)
    (hi : CursorInv s) : CursorInv t := by
  have hn : s.cfg.channels = 3 * s.cfg.chipCount := rfl
  have hf : s.cfg.frameBytes = 4 * s.cfg.chipCount := rfl
  obtain ⟨hb1, hb2, hb3, hb4⟩ := hi
  obtain ⟨hc, ⟨-, rfl⟩ | ⟨-, -, rfl⟩ | ⟨-, hg, hp, rfl⟩ | ⟨-, hg, hp, p, m, -, -, rfl⟩⟩ :=
    consume_cases h
  · have := hc.1
    exact ⟨by simp, by simp only; omega, by simp, by simp⟩
  · exact ⟨hb1, hb2, hb3, hb4⟩
  · have h0 := phaseOf_eq_p0.mp hp
    exact ⟨hb1, by simp only; omega, by simp only; omega, by simp⟩
  · have h0 : s.bi % 4 ≠ 0 := fun e => hp (phaseOf_eq_p0.mpr e)
    exact ⟨by simp only; omega, by simp only; omega, by simp only; omega, by simp⟩

/-- `CONSUME` keeps everything a reachable state satisfies. -/
theorem consume_keeps_inv {b : Byte} {s t : State} (h : consume b s = .next t) (hi : Inv s) :
    Inv t := by
  have hcur := consume_keeps_cursorInv h hi.cursor
  obtain ⟨hc, ho⟩ := consume_cases h
  obtain ⟨-, rfl⟩ | ⟨-, -, rfl⟩ | ⟨-, -, -, rfl⟩ | ⟨-, -, -, p, m, -, hm, rfl⟩ := ho
  · exact ⟨hi.config, hcur, hi.buffer, ⟨hi.outputs.1, hi.outputs.2⟩⟩
  · exact ⟨hi.config, hcur, hi.buffer, ⟨hi.outputs.1, hi.outputs.2⟩⟩
  · exact ⟨hi.config, hcur, hi.buffer, ⟨hi.outputs.1, hi.outputs.2⟩⟩
  · exact ⟨hi.config, hcur, wf_memWrite hi.buffer hm, ⟨hi.outputs.1, hi.outputs.2⟩⟩

/-- On a state of the invariant `CONSUME` answers a next state, whatever the byte (10_state R36). -/
theorem consume_completes {s : State} (hi : Inv s) (b : Byte) : ∃ t, consume b s = .next t := by
  by_cases hb : isMarker b = true
  · exact ⟨_, consume_marker hi.config hb⟩
  · rw [Bool.not_eq_true] at hb
    by_cases hg : s.ci < s.cfg.channels
    · by_cases hp : phase s = .p0
      · exact ⟨_, consume_phase0 hi.config hb hg hp⟩
      · have h1 : 1 ≤ s.bi := by
          rcases Nat.eq_zero_or_pos s.bi with h0 | h0
          · exact absurd (phaseOf_eq_p0.mpr (by omega)) hp
          · exact h0
        obtain ⟨p, hprev⟩ := Option.ne_none_iff_exists'.mp (hi.cursor.prevWritten h1)
        obtain ⟨m, -, hm⟩ := completeChannel_next (fun p => completedValue (phase s) p b) hprev hg
        exact ⟨_, by rw [consume_complete hi.config hb hg hp, hm, mapNext_next]⟩
    · exact ⟨_, consume_closed hi.config hb (Nat.not_lt.mp hg)⟩

/-- Consuming a sequence keeps the invariant. -/
theorem consumeAll_keeps_inv {bs : List Byte} {s t : State} (h : consumeAll bs s = .next t)
    (hi : Inv s) : Inv t := by
  induction bs generalizing s with
  | nil => injection h with h; exact h ▸ hi
  | cons b bs ih =>
    obtain ⟨u, hu, ht⟩ := andThen_eq_next h
    exact ih ht (consume_keeps_inv hu hi)

/-- On a state of the invariant a whole sequence can be consumed. -/
theorem consumeAll_completes {s : State} (hi : Inv s) (bs : List Byte) :
    ∃ t, consumeAll bs s = .next t := by
  induction bs generalizing s with
  | nil => exact ⟨s, rfl⟩
  | cons b bs ih =>
    obtain ⟨u, hu⟩ := consume_completes hi b
    obtain ⟨t, ht⟩ := ih (consume_keeps_inv hu hi)
    exact ⟨t, by rw [consumeAll, hu, andThen_next, ht]⟩

end Sys2Proof.Machine
end

