-- ==== Sys2Proof/Laws/Step.lean ====
section
/-! SUPPORT. Laws/Step.lean: which meaning an arm calls, and the shapes of a step. -/

namespace Sys2Proof.Machine

/-! ### The arms -/

theorem exec_consumeResync (b : Byte) (s : State) :
    exec (.consumeResync b) s = execConsumeResync b s := rfl
theorem exec_consumeP0 (b : Byte) (s : State) : exec (.consumeP0 b) s = execConsumeP0 b s := rfl
theorem exec_consumeP1 (b : Byte) (s : State) : exec (.consumeP1 b) s = execConsumeP1 b s := rfl
theorem exec_consumeP2 (b : Byte) (s : State) : exec (.consumeP2 b) s = execConsumeP2 b s := rfl
theorem exec_consumeP3 (b : Byte) (s : State) : exec (.consumeP3 b) s = execConsumeP3 b s := rfl
theorem exec_consumeDrop (b : Byte) (s : State) :
    exec (.consumeDrop b) s = execConsumeDrop b s := rfl
theorem exec_encodeFrame (v : List Byte) (s : State) :
    exec (.encodeFrame v) s = execEncodeFrame v s := rfl
theorem exec_iteration (s : State) : exec .iteration s = execIteration s := rfl
theorem exec_showBuffer (s : State) : exec .showBuffer s = execShowBuffer s := rfl
theorem exec_envRx (b : Byte) (s : State) : exec (.envRx b) s = execEnvRx b s := rfl
theorem exec_reset (init : List Byte) (s : State) : exec (.reset init) s = execReset init s := rfl

/-! ### The presentation -/

/-- All that presenting the buffer can do when it answers a next state. -/
theorem presentBuffer_eq_next {s t : State} (h : presentBuffer s = .next t) :
    ∃ ws, snapshot s = some ws ∧ t = emitShow ws s := by
  unfold presentBuffer at h
  split at h
  · cases h
  · rename_i ws hws
    exact ⟨ws, hws, by injection h with h; exact h.symm⟩

theorem presentBuffer_next {s : State} {ws : List Byte} (h : snapshot s = some ws) :
    presentBuffer s = .next (emitShow ws s) := by
  simp [presentBuffer, h]

/-! ### The consumption phase -/

theorem setRxq_self {s : State} {q : List Byte} (h : s.rxq = q) : setRxq q s = s := by
  subst h; rfl

/-- The consumption phase takes a prefix of the queue, in order, and stops after the first marker. -/
theorem consumePhase_cases {q : List Byte} {s t : State} (hq : s.rxq = q)
    (h : consumePhase q s = .next t) :
    ∃ taken left, q = taken ++ left ∧ t.rxq = left ∧
      consumeAll taken (setRxq left s) = .next t ∧
      ((left = [] ∧ ∀ b ∈ taken, isMarker b = false) ∨
        ∃ ps r, taken = ps ++ [r] ∧ isMarker r = true ∧ ∀ b ∈ ps, isMarker b = false) := by
  induction q generalizing s with
  | nil =>
    injection h with h
    subst h
    exact ⟨[], [], rfl, hq, by rw [setRxq_self hq]; rfl, .inl ⟨rfl, by simp⟩⟩
  | cons b rest ih =>
    obtain ⟨u, hu, ht⟩ := andThen_eq_next h
    have hm := consume_commit hu
    by_cases hb : isMarker b = true
    · rw [hm, if_pos hb] at ht
      injection ht with ht
      subst ht
      exact ⟨[b], rest, rfl, (consume_frame hu).2.2.1, by simp [consumeAll, hu],
        .inr ⟨[], b, rfl, hb, by simp⟩⟩
    · rw [hm, if_neg hb] at ht
      rw [Bool.not_eq_true] at hb
      obtain ⟨taken, left, hq', hl, hc, ho⟩ := ih (consume_frame hu).2.2.1 ht
      refine ⟨b :: taken, left, by simp [hq'], hl, ?_, ?_⟩
      · rw [consume_setRxq] at hu
        obtain ⟨u', hu', rfl⟩ := mapNext_eq_next hu
        simp only [consumeAll, consume_setRxq, hu', mapNext_next, andThen_next]
        exact hc
      · rcases ho with ⟨h1, h2⟩ | ⟨ps, r, h1, h2, h3⟩
        · exact .inl ⟨h1, by simpa [hb] using h2⟩
        · exact .inr ⟨b :: ps, r, by simp [h1], h2, by simpa [hb] using h3⟩

/-- With no marker in the queue the phase takes all of it. -/
theorem consumePhase_payloads {ps : List Byte} (hp : ∀ b ∈ ps, isMarker b = false) (s : State)
    (hq : s.rxq = ps) : consumePhase ps s = consumeAll ps (setRxq [] s) := by
  induction ps generalizing s with
  | nil => rw [setRxq_self hq]; rfl
  | cons b ps ih =>
    simp only [consumePhase, consumeAll, consume_setRxq]
    cases hu : consume b s with
    | fault f => rfl
    | refused r => rfl
    | next u =>
      have hb : u.commit = false := by rw [consume_commit hu]; exact hp b (by simp)
      simp only [mapNext_next, andThen_next, setRxq_commit, hb, Bool.false_eq_true, if_false]
      exact ih (fun x hx => hp x (by simp [hx])) (setRxq ps u) rfl

/-- The phase leaves early on the first marker, and what follows it stays queued. -/
theorem consumePhase_marker {ps : List Byte} {r : Byte} {rest : List Byte}
    (hp : ∀ b ∈ ps, isMarker b = false) (hr : isMarker r = true) (s : State) :
    consumePhase (ps ++ r :: rest) s = consumeAll (ps ++ [r]) (setRxq rest s) := by
  induction ps generalizing s with
  | nil =>
    simp only [List.nil_append, consumePhase, consumeAll]
    cases hu : consume r (setRxq rest s) with
    | fault f => rfl
    | refused r => rfl
    | next u =>
      have hb : u.commit = true := by rw [consume_commit hu]; exact hr
      simp [hb]
  | cons b ps ih =>
    simp only [List.cons_append, consumePhase, consumeAll, consume_setRxq]
    cases hu : consume b s with
    | fault f => rfl
    | refused r => rfl
    | next u =>
      have hb : u.commit = false := by rw [consume_commit hu]; exact hp b (by simp)
      simp only [mapNext_next, andThen_next, setRxq_commit, hb, Bool.false_eq_true, if_false]
      exact ih (fun x hx => hp x (by simp [hx])) (setRxq (ps ++ r :: rest) u)

/-! ### Runs -/

/-- The host's run of the core is `runSteps`. -/
theorem core_run_eq_runSteps (k : Nat) (s : State) : Sys2Proof.core.run k s = runSteps k s := by
  induction k generalizing s with
  | zero => rfl
  | succ k ih =>
    have h : ∀ o : Result, step s = o → Sys2Proof.core.run (k + 1) s = andThen o (runSteps k) := by
      intro o ho
      have ho' : Sys2Proof.core.step s = o := ho
      simp only [Host.Core.run, ho']
      cases o with
      | next t => exact ih t
      | fault f => rfl
      | refused r => rfl
    exact h _ rfl

theorem runSteps_succ (k : Nat) (s : State) :
    runSteps (k + 1) s = andThen (step s) (runSteps k) := rfl

/-- A run is a run of its first part, then of the rest. -/
theorem runSteps_add (k l : Nat) (s : State) :
    runSteps (k + l) s = andThen (runSteps k s) (runSteps l) := by
  induction k generalizing s with
  | zero => rw [Nat.zero_add]; rfl
  | succ k ih =>
    rw [Nat.succ_add, runSteps_succ, runSteps_succ, andThen_assoc]
    congr 1
    exact funext ih

/-! ### A step -/

/-- Taking the next turn touches nothing but the schedule. -/
theorem nextTurn_state (s : State) :
    ∃ ts e, (nextTurn s).2 = setSchedule ts e s := by
  unfold nextTurn
  split
  · exact ⟨_, _, rfl⟩
  · split
    · exact ⟨_, _, rfl⟩
    · exact ⟨_, _, rfl⟩
    · exact ⟨_, _, rfl⟩

theorem nextTurn_of_cons {s : State} {t : Turn} {ts : List Turn} (h : s.inputs = t :: ts) :
    nextTurn s = (t, setSchedule ts s.env s) := by
  simp [nextTurn, h]

theorem nextTurn_eq {s s' : State} {t : Turn} (h : nextTurn s = (t, s')) :
    ∃ ts e, s' = setSchedule ts e s := by
  simpa [h] using nextTurn_state s

/-- The schedule begins again. -/
theorem nextTurn_of_repeat {s : State} {t : Turn} {ts : List Turn} (h : s.inputs = [])
    (he : s.env = .repeating (t :: ts)) : nextTurn s = (t, setSchedule ts s.env s) := by
  simp [nextTurn, h, he]

theorem nextTurn_of_free {s : State} {n : Nat} (h : s.inputs = []) (he : s.env = .free n) :
    nextTurn s = (drawnTurn n, setSchedule [] (.free (n + 1)) s) := by
  simp [nextTurn, h, he]

theorem nextTurn_of_quiet {s : State} (h : s.inputs = []) (he : s.env = .repeating []) :
    nextTurn s = (.loop, s) := by
  simp [nextTurn, h, he]

theorem step_of_loop {s s' : State} (h : nextTurn s = (.loop, s')) : step s = loopStep s' := by
  simp [step, h, turnInstr]

theorem step_of_turn {s s' : State} {t : Turn} {i : Instr} (h : nextTurn s = (t, s'))
    (hi : turnInstr t = some i) : step s = exec i s' := by
  simp [step, h, hi]

theorem loopStep_showing {s : State} (h : s.loop = .showing) :
    loopStep s = mapNext (exec .showBuffer s) (setLoop .consuming) := by
  simp [loopStep, h]

theorem loopStep_empty {s : State} (h : s.loop = .consuming) (hq : s.rxq = []) :
    loopStep s = endPoll s := by
  simp [loopStep, h, poll, hq, decode]

theorem loopStep_byte {s : State} {b : Byte} {rest : List Byte} (h : s.loop = .consuming)
    (hq : s.rxq = b :: rest) :
    loopStep s = mapNext (exec (decodeByte (selector s) b) (setRxq rest s)) leaveOnCommit := by
  simp [loopStep, h, poll, hq, decode]

/-- The consuming step by whatever the poll decodes. -/
theorem loopStep_decoded {s : State} {i : Instr} {rest : List Byte} (h : s.loop = .consuming)
    (hd : decode (selector s) s.rxq = .ok (i, rest)) :
    loopStep s = mapNext (exec i (setRxq rest s)) leaveOnCommit := by
  cases hq : s.rxq with
  | nil => rw [hq] at hd; cases hd
  | cons b q =>
    rw [hq] at hd
    injection hd with hd
    injection hd with h1 h2
    rw [loopStep_byte h hq, h1, h2]

end Sys2Proof.Machine
end

