-- ==== Sys2Proof/Laws/Codec.lean ====
section
/-! SUPPORT. Laws/Codec.lean: the bits of the assembled channels and of the group bytes, that assembling
inverts cutting (40_encoder R108), and where each group byte stands in a frame. -/

namespace Sys2Proof.Machine

/-! ### Bits -/

theorem assembleR_bit (p b : Byte) {i : Nat} (hi : i < 8) :
    (assembleR p b).getLsbD i = if i < 2 then b.getLsbD (4 + i) else p.getLsbD (i - 2) := by
  have h3 : (3 : Nat) = 2 ^ 2 - 1 := rfl
  simp only [assembleR, trunc8, BitVec.getLsbD_ofNat, hi, h3, Nat.testBit_or, Nat.testBit_and,
    Nat.testBit_shiftLeft, BitVec.testBit_toNat, Nat.testBit_shiftRight,
    Nat.testBit_two_pow_sub_one]
  by_cases h : i < 2
  · simp [h, show ¬ i ≥ 2 by omega]
  · simp [h, show i ≥ 2 by omega]

theorem assembleG_bit (p b : Byte) {i : Nat} (hi : i < 8) :
    (assembleG p b).getLsbD i = if i < 4 then b.getLsbD (2 + i) else p.getLsbD (i - 4) := by
  have h3 : (15 : Nat) = 2 ^ 4 - 1 := rfl
  simp only [assembleG, trunc8, BitVec.getLsbD_ofNat, hi, h3, Nat.testBit_or, Nat.testBit_and,
    Nat.testBit_shiftLeft, BitVec.testBit_toNat, Nat.testBit_shiftRight,
    Nat.testBit_two_pow_sub_one]
  by_cases h : i < 4
  · simp [h, show ¬ i ≥ 4 by omega]
  · simp [h, show i ≥ 4 by omega]

theorem assembleB_bit (p b : Byte) {i : Nat} (hi : i < 8) :
    (assembleB p b).getLsbD i = if i < 6 then b.getLsbD i else p.getLsbD (i - 6) := by
  have h3 : (63 : Nat) = 2 ^ 6 - 1 := rfl
  simp only [assembleB, trunc8, BitVec.getLsbD_ofNat, hi, h3, Nat.testBit_or, Nat.testBit_and,
    Nat.testBit_shiftLeft, BitVec.testBit_toNat, Nat.testBit_two_pow_sub_one]
  by_cases h : i < 6
  · simp [h, show ¬ i ≥ 6 by omega]
  · simp [h, show i ≥ 6 by omega]

theorem groupByte0_bit (f : Bool) (r : Byte) {i : Nat} (hi : i < 8) :
    (groupByte0 f r).getLsbD i = ((f && decide (i = 7)) || r.getLsbD (2 + i)) := by
  simp only [groupByte0, trunc8, BitVec.getLsbD_ofNat, hi, Nat.testBit_or, BitVec.testBit_toNat,
    Nat.testBit_shiftRight, decide_true, Bool.true_and]
  congr 1
  cases f
  · simp
  · have h7 : (0x80 : Nat) = 2 ^ 7 := rfl
    simp only [if_true, h7, Nat.testBit_two_pow, Bool.true_and]
    exact decide_eq_decide.mpr eq_comm

theorem groupByte1_bit (r g : Byte) {i : Nat} (hi : i < 8) :
    (groupByte1 r g).getLsbD i =
      ((decide (4 ≤ i ∧ i < 6) && r.getLsbD (i - 4)) || g.getLsbD (4 + i)) := by
  have h3 : (3 : Nat) = 2 ^ 2 - 1 := rfl
  simp only [groupByte1, trunc8, BitVec.getLsbD_ofNat, hi, h3, Nat.testBit_or, Nat.testBit_and,
    Nat.testBit_shiftLeft, BitVec.testBit_toNat, Nat.testBit_shiftRight,
    Nat.testBit_two_pow_sub_one, decide_true, Bool.true_and]
  congr 1
  by_cases h : 4 ≤ i ∧ i < 6
  · simp [h, show i - 4 < 2 by omega]
  · by_cases h' : 4 ≤ i
    · simp [h, show ¬ i - 4 < 2 by omega]
    · simp [h']

theorem groupByte2_bit (g b : Byte) {i : Nat} (hi : i < 8) :
    (groupByte2 g b).getLsbD i =
      ((decide (2 ≤ i ∧ i < 6) && g.getLsbD (i - 2)) || b.getLsbD (6 + i)) := by
  have h3 : (15 : Nat) = 2 ^ 4 - 1 := rfl
  simp only [groupByte2, trunc8, BitVec.getLsbD_ofNat, hi, h3, Nat.testBit_or, Nat.testBit_and,
    Nat.testBit_shiftLeft, BitVec.testBit_toNat, Nat.testBit_shiftRight,
    Nat.testBit_two_pow_sub_one, decide_true, Bool.true_and]
  congr 1
  by_cases h : 2 ≤ i ∧ i < 6
  · simp [h, show i - 2 < 4 by omega]
  · by_cases h' : 2 ≤ i
    · simp [h, show ¬ i - 2 < 4 by omega]
    · simp [h']

theorem groupByte3_bit (b : Byte) {i : Nat} (hi : i < 8) :
    (groupByte3 b).getLsbD i = (decide (i < 6) && b.getLsbD i) := by
  have h3 : (63 : Nat) = 2 ^ 6 - 1 := rfl
  simp only [groupByte3, trunc8, BitVec.getLsbD_ofNat, hi, h3, Nat.testBit_and,
    BitVec.testBit_toNat, Nat.testBit_two_pow_sub_one, decide_true, Bool.true_and]
  exact Bool.and_comm _ _

/-! ### Assembling inverts cutting (40_encoder R108) -/

theorem assembleR_groupBytes (f : Bool) (r g : Byte) :
    assembleR (groupByte0 f r) (groupByte1 r g) = r := by
  apply BitVec.eq_of_getLsbD_eq
  intro i hi
  rw [assembleR_bit _ _ hi]
  by_cases h : i < 2
  · have : g.getLsbD (4 + (4 + i)) = false := BitVec.getLsbD_of_ge _ _ (by omega)
    rw [if_pos h, groupByte1_bit _ _ (by omega), this]
    simp [show 4 + i < 6 by omega]
  · rw [if_neg h, groupByte0_bit _ _ (by omega)]
    simp [show ¬ i - 2 = 7 by omega, show 2 + (i - 2) = i by omega]

theorem assembleG_groupBytes (r g b : Byte) : assembleG (groupByte1 r g) (groupByte2 g b) = g := by
  apply BitVec.eq_of_getLsbD_eq
  intro i hi
  rw [assembleG_bit _ _ hi]
  by_cases h : i < 4
  · have : b.getLsbD (6 + (2 + i)) = false := BitVec.getLsbD_of_ge _ _ (by omega)
    rw [if_pos h, groupByte2_bit _ _ (by omega), this]
    simp [show 2 + i < 6 by omega]
  · rw [if_neg h, groupByte1_bit _ _ (by omega)]
    simp [show ¬ 4 ≤ i - 4 by omega, show 4 + (i - 4) = i by omega]

theorem assembleB_groupBytes (g b : Byte) : assembleB (groupByte2 g b) (groupByte3 b) = b := by
  apply BitVec.eq_of_getLsbD_eq
  intro i hi
  rw [assembleB_bit _ _ hi]
  by_cases h : i < 6
  · rw [if_pos h, groupByte3_bit _ hi]
    simp [h]
  · rw [if_neg h, groupByte2_bit _ _ (by omega)]
    simp [show ¬ 2 ≤ i - 6 by omega, show 6 + (i - 6) = i by omega]

/-! ### A frame by its groups -/

theorem encodeGroups_cons (f : Bool) (r g b : Byte) (rest : List Byte) :
    encodeGroups f (r :: g :: b :: rest) =
      groupByte0 f r :: groupByte1 r g :: groupByte2 g b :: groupByte3 b ::
        encodeGroups false rest := by
  simp [encodeGroups]

/-- A list of `3(c+1)` values is one chip's triple and the rest. -/
theorem exists_triple {c : Nat} {v : List Byte} (h : v.length = 3 * (c + 1)) :
    ∃ r g b rest, v = r :: g :: b :: rest ∧ rest.length = 3 * c := by
  rcases v with _ | ⟨r, _ | ⟨g, _ | ⟨b, rest⟩⟩⟩
  · simp at h
  · simp at h; omega
  · simp at h; omega
  · exact ⟨r, g, b, rest, rfl, by simp at h; omega⟩

theorem encodeGroups_length (f : Bool) {c : Nat} {v : List Byte} (h : v.length = 3 * c) :
    (encodeGroups f v).length = 4 * c := by
  induction c generalizing f v with
  | zero =>
    obtain rfl := List.length_eq_zero_iff.mp h
    simp [encodeGroups]
  | succ c ih =>
    obtain ⟨r, g, b, rest, rfl, hr⟩ := exists_triple h
    simp [encodeGroups_cons, ih false hr]; omega

/-- The four bytes of chip `j`'s group stand at `4j .. 4j+3`; only the first chip's G0 has the marker
(30_encoding R75). -/
theorem encodeGroups_chip (f : Bool) {c : Nat} {v : List Byte} (h : v.length = 3 * c) {j : Nat}
    (hj : j < c) :
    ∃ r g b, v[3 * j]? = some r ∧ v[3 * j + 1]? = some g ∧ v[3 * j + 2]? = some b ∧
      (encodeGroups f v)[4 * j]? = some (groupByte0 (f && decide (j = 0)) r) ∧
      (encodeGroups f v)[4 * j + 1]? = some (groupByte1 r g) ∧
      (encodeGroups f v)[4 * j + 2]? = some (groupByte2 g b) ∧
      (encodeGroups f v)[4 * j + 3]? = some (groupByte3 b) := by
  induction c generalizing f v j with
  | zero => omega
  | succ c ih =>
    obtain ⟨r, g, b, rest, rfl, hr⟩ := exists_triple h
    rw [encodeGroups_cons]
    cases j with
    | zero => exact ⟨r, g, b, by simp⟩
    | succ j =>
      obtain ⟨r', g', b', h1, h2, h3, h4, h5, h6, h7⟩ := ih false hr (Nat.lt_of_succ_lt_succ hj)
      rw [Bool.false_and] at h4
      rw [show decide (j + 1 = 0) = false by simp, Bool.and_false,
        show 3 * (j + 1) = 3 * j + 3 by omega, show 4 * (j + 1) = 4 * j + 4 by omega]
      exact ⟨r', g', b', h1, h2, h3, h4, h5, h6, h7⟩

end Sys2Proof.Machine
end

