-- ==== Sys2Proof/Laws/PerInstr.lean ====
section
/-! SUPPORT. Laws/PerInstr.lean: the laws stated of the operations one by one (LAWS.json). -/

namespace Sys2Proof.Laws.MarkerBit

theorem isMarker_markerRow : ∀ b : Byte, isMarker (markerRow b) = true := by decide
theorem isMarker_payloadRow : ∀ b : Byte, isMarker (payloadRow b) = false := by decide

/-- Bit 7 of an operation's wire byte is set exactly for RESYNC (30_encoding R71, R81). -/
def Statement (i : Instr) : Prop :=
  ∀ b : Byte, encode i = some b → (isMarker b = true ↔ ∃ x, i = .consumeResync x)

theorem consumeResync (b : Byte) : Statement (.consumeResync b) := by
  rintro _ ⟨rfl⟩; simp [isMarker_markerRow]

theorem consumeP0 (b : Byte) : Statement (.consumeP0 b) := by
  rintro _ ⟨rfl⟩; simp [isMarker_payloadRow]

theorem consumeP1 (b : Byte) : Statement (.consumeP1 b) := by
  rintro _ ⟨rfl⟩; simp [isMarker_payloadRow]

theorem consumeP2 (b : Byte) : Statement (.consumeP2 b) := by
  rintro _ ⟨rfl⟩; simp [isMarker_payloadRow]

theorem consumeP3 (b : Byte) : Statement (.consumeP3 b) := by
  rintro _ ⟨rfl⟩; simp [isMarker_payloadRow]

theorem consumeDrop (b : Byte) : Statement (.consumeDrop b) := by
  rintro _ ⟨rfl⟩; simp [isMarker_payloadRow]

theorem encodeFrame (v : List Byte) : Statement (.encodeFrame v) := by simp [Statement, encode]
theorem iteration : Statement .iteration := by simp [Statement, encode]
theorem showBuffer : Statement .showBuffer := by simp [Statement, encode]
theorem envRx (b : Byte) : Statement (.envRx b) := by simp [Statement, encode]
theorem reset (init : List Byte) : Statement (.reset init) := by simp [Statement, encode]

end Sys2Proof.Laws.MarkerBit
end

