-- ==== Sys2Proof/Tests/Slice0.lean ====
section
/-! SUPPORT. Tests/Slice0.lean: small tests of single operations, and for each obligation with hypotheses
a concrete state and operands that meet them. The expected values are those of spec/95_test_vectors.md
(V<n>, P<n>), or hand-worked from the rule named. -/

namespace Sys2Proof.Tests

open Sys2Proof Sys2Proof.Machine

/-! ### States -/

/-- A decoder state `(CI, BI, PREV)` of `c` chips over the buffer contents `init`. -/
def decoderAt (c : Nat) (init : List Byte) (ci bi : Nat) (prev : Option Byte) : State :=
  { State.boot { chipCount := c, bufferInit := init } with ci := ci, bi := bi, prev := prev }

/-- One chip, all cells 0. -/
def oneChip (ci bi : Nat) (prev : Option Byte) : State := decoderAt 1 [0, 0, 0] ci bi prev

/-- Two chips, all cells `0x11`. -/
def twoChips (ci bi : Nat) (prev : Option Byte) : State :=
  decoderAt 2 [0x11, 0x11, 0x11, 0x11, 0x11, 0x11] ci bi prev

/-- Two chips after the first chip of a frame, with bytes waiting and one snapshot shown. -/
def midFrame (rxq : List Byte) : State :=
  { twoChips 3 4 (some 0x0C) with
    buf := [(0, 0xB6), (1, 0x5A), (2, 0xCC)]
    rxq := rxq
    display := [[0x11, 0x11, 0x11, 0x11, 0x11, 0x11]]
    sinkCalls := .begin :: showCalls [0x11, 0x11, 0x11, 0x11, 0x11, 0x11] }

/-- Cursor, `COMMIT` and buffer of a state. -/
structure DecoderView where
  ci : Nat
  bi : Nat
  prev : Option Byte
  commit : Bool
  buf : Option (List Byte)
deriving DecidableEq, Repr

/-- The view of the state an operation answers. -/
def decoderView (r : Result) : Option DecoderView :=
  (nextState? r).map fun t => ⟨t.ci, t.bi, t.prev, t.commit, snapshot t⟩

/-! ### Well-formedness refuses -/

theorem test_wf_refuses_resync_without_marker (c : Config) :
    Instr.wf c (.consumeResync 0x7F) = false := by simp [Instr.wf, isMarker]

theorem test_wf_refuses_payload_with_marker (c : Config) :
    Instr.wf c (.consumeP0 0x80) = false ∧ Instr.wf c (.consumeP1 0x80) = false ∧
      Instr.wf c (.consumeP2 0x80) = false ∧ Instr.wf c (.consumeP3 0x80) = false ∧
      Instr.wf c (.consumeDrop 0x80) = false := by simp [Instr.wf, isMarker]

theorem test_wf_refuses_short_frame : Instr.wf ⟨1, [0, 0, 0]⟩ (.encodeFrame [0xB6, 0x5A]) = false := by
  decide

theorem test_wf_refuses_long_bufferInit :
    Instr.wf ⟨1, [0, 0, 0]⟩ (.reset [1, 2, 3, 4]) = false := by decide

theorem test_config_refuses_no_chip : ¬ Config.Valid ⟨0, []⟩ := by decide

theorem test_config_refuses_short_bufferInit : ¬ Config.Valid ⟨1, [0, 0]⟩ := by decide

/-! ### Decoding: words written out from the patterns of 30_encoding R72 and R81 -/

theorem test_decode_resync : decodeByte ⟨false, .p3⟩ 0b10101101#8 = .consumeResync 0xAD := by decide
theorem test_decode_p0 : decodeByte ⟨true, .p0⟩ 0b00000000#8 = .consumeP0 0x00 := by decide
theorem test_decode_p1 : decodeByte ⟨true, .p1⟩ 0b00100101#8 = .consumeP1 0x25 := by decide
theorem test_decode_p2 : decodeByte ⟨true, .p2⟩ 0b00101011#8 = .consumeP2 0x2B := by decide
theorem test_decode_p3 : decodeByte ⟨true, .p3⟩ 0b00001100#8 = .consumeP3 0x0C := by decide
theorem test_decode_drop : decodeByte ⟨false, .p0⟩ 0b00010101#8 = .consumeDrop 0x15 := by decide

theorem test_decode_no_byte : decode ⟨true, .p0⟩ [] = .error .noByte := by decide

theorem test_tableWord_resync : decodeTableWord 8 0xFF = some (.consumeResync 0xFF) := by decide
theorem test_tableWord_other_width : decodeTableWord 16 0x80 = none := by decide

/-- The interface operations have no byte (30_encoding R82). -/
theorem test_interface_operations_have_no_byte :
    encode (.encodeFrame [1, 2, 3]) = none ∧ encode .iteration = none ∧ encode .showBuffer = none ∧
      encode (.envRx 0x80) = none ∧ encode (.reset [1, 2, 3]) = none := by decide

/-! ### One operation each -/

/-- V8l. -/
theorem test_resync_when_full :
    decoderView (exec (.consumeResync 0xFF) (decoderAt 1 [1, 2, 3] 3 4 (some 0x0C))) =
      some ⟨0, 1, some 0xFF, true, some [1, 2, 3]⟩ := by decide

/-- V8m. -/
theorem test_resync_discards_partial :
    decoderView (exec (.consumeResync 0x80) (oneChip 1 2 (some 0x25))) =
      some ⟨0, 1, some 0x80, true, some [0, 0, 0]⟩ := by decide

/-- V8a. -/
theorem test_p0_second_chip :
    decoderView (exec (.consumeP0 0x00) (twoChips 3 4 (some 0x0C))) =
      some ⟨3, 5, some 0x00, false, some [0x11, 0x11, 0x11, 0x11, 0x11, 0x11]⟩ := by decide

/-- V8n. -/
theorem test_p0_first_byte_after_reset :
    decoderView (exec (.consumeP0 0x2D) (oneChip 0 0 none)) =
      some ⟨0, 1, some 0x2D, false, some [0, 0, 0]⟩ := by decide

/-- V8c. -/
theorem test_p1_truncates :
    decoderView (exec (.consumeP1 0x30) (oneChip 0 1 (some 0xFF))) =
      some ⟨1, 2, some 0x30, false, some [0xFF, 0, 0]⟩ := by decide

/-- V8e. -/
theorem test_p1_second_chip :
    decoderView (exec (.consumeP1 0x7F) (decoderAt 2 [0, 0, 0, 0, 0, 0] 3 5 (some 0x18))) =
      some ⟨4, 6, some 0x7F, false, some [0, 0, 0, 0x63, 0, 0]⟩ := by decide

/-- V8f. -/
theorem test_p2_discards_high_prev :
    decoderView (exec (.consumeP2 0x00) (oneChip 1 2 (some 0x7F))) =
      some ⟨2, 3, some 0x00, false, some [0, 0xF0, 0]⟩ := by decide

/-- V8g. -/
theorem test_p2_worked_example :
    decoderView (exec (.consumeP2 0x2B) (oneChip 1 2 (some 0x25))) =
      some ⟨2, 3, some 0x2B, false, some [0, 0x5A, 0]⟩ := by decide

/-- V8h. -/
theorem test_p3_ignores_bit6 :
    decoderView (exec (.consumeP3 0x40) (oneChip 2 3 (some 0xFF))) =
      some ⟨3, 4, some 0x40, false, some [0, 0, 0xC0]⟩ := by decide

/-- V8i. -/
theorem test_p3_last_channel :
    decoderView (exec (.consumeP3 0x0C) (oneChip 2 3 (some 0x2B))) =
      some ⟨3, 4, some 0x0C, false, some [0, 0, 0xCC]⟩ := by decide

/-- V8j. -/
theorem test_drop_keeps_prev :
    decoderView (exec (.consumeDrop 0x15) (oneChip 3 4 (some 0x0C))) =
      some ⟨3, 4, some 0x0C, false, some [0, 0, 0]⟩ := by decide

/-- V6. -/
theorem test_encode_frame_three_chips :
    (nextState? (exec (.encodeFrame [0x80, 0x40, 0x20, 0x10, 0x08, 0x04, 0x02, 0x01, 0xFF])
      (decoderAt 3 [0, 0, 0, 0, 0, 0, 0, 0, 0] 0 0 none))).map State.encOut =
      some [0xA0, 0x04, 0x00, 0x20, 0x04, 0x00, 0x20, 0x04, 0x00, 0x20, 0x07, 0x3F] := by decide

/-- V7. -/
theorem test_encode_frame_wrong_length :
    refusalOf? (exec (.encodeFrame [0xB6, 0x5A]) (oneChip 0 0 none)) = some .frameLength := by decide

/-- V21. -/
theorem test_iteration_leaves_on_resync :
    (nextState? (exec .iteration { oneChip 0 0 none with rxq := [0xAD, 0x25, 0x2B, 0x0C] })).map
        (fun t => (t.display, t.rxq, t.ci, t.bi, t.prev)) =
      some ([[0, 0, 0]], [0x25, 0x2B, 0x0C], 0, 1, some 0xAD) := by decide

/-- V22. -/
theorem test_iteration_drains :
    (nextState? (exec .iteration { oneChip 0 1 (some 0xAD) with rxq := [0x25, 0x2B, 0x0C] })).map
        (fun t => (t.display, t.rxq, t.ci, t.bi, t.prev)) =
      some ([[0xB6, 0x5A, 0xCC]], [], 3, 4, some 0x0C) := by decide

/-- V23. -/
theorem test_show_two_chips :
    (nextState? (exec .showBuffer
        (decoderAt 2 [0xB6, 0x5A, 0xCC, 0x01, 0x80, 0x7F] 0 0 none))).map
        (fun t => (t.display, t.sinkCalls)) =
      some ([[0xB6, 0x5A, 0xCC, 0x01, 0x80, 0x7F]],
        [.begin, .setColor 0 0xB6 0x5A 0xCC, .setColor 1 0x01 0x80 0x7F, .flush]) := by decide

/-- V24. -/
theorem test_env_rx_at_the_tail :
    (nextState? (exec (.envRx 0x2B) { oneChip 0 0 none with rxq := [0x25] })).map State.rxq =
      some [0x25, 0x2B] := by decide

/-- V25. -/
theorem test_reset_decoder :
    decoderView (exec (.reset [0x11, 0x22, 0x33])
        { oneChip 2 3 (some 0x2B) with buf := [(0, 0xB6)], commit := true }) =
      some ⟨0, 0, none, false, some [0x11, 0x22, 0x33]⟩ := by decide

/-- V25. -/
theorem test_reset_loop :
    (nextState? (exec (.reset [0x11, 0x22, 0x33])
        { oneChip 2 3 (some 0x2B) with
          rxq := [0x0C], display := [[0, 0, 0]], loop := .showing })).map
        (fun t => (t.rxq, t.display, t.loop)) = some ([], [], .consuming) := by decide

/-- 00_scope R5. -/
theorem test_no_chip_is_refused :
    refusalOf? (exec .showBuffer (decoderAt 0 [] 0 0 none)) = some .chipCountZero := by decide

/-! ### One step -/

/-- V8n at `State.reset`: a delivered byte runs as the first operation. -/
theorem test_first_fetched_byte_after_reset :
    (nextState? (step (State.reset.withFetchWord 8 0x2D))).map
        (fun t => (t.ci, t.bi, t.prev, t.rxq, t.loop)) =
      some (0, 1, some 0x2D, [], .consuming) := by decide

/-- A resync byte ends the consumption phase (42_commit R172). -/
theorem test_fetched_resync_turns_to_showing :
    (nextState? (step (State.reset.withFetchWord 8 0xAD))).map
        (fun t => (t.bi, t.prev, t.commit, t.loop)) =
      some (1, some 0xAD, true, .showing) := by decide

/-- The turns of a repeating environment begin when no listed turn is left, and stay. -/
theorem test_repeating_environment :
    (nextState? (step { oneChip 0 0 none with
        rxq := [0x15], env := .repeating [.envRx 0x2D, .loop] })).map
        (fun t => (t.rxq, t.inputs, t.env)) =
      some ([0x15, 0x2D], [.loop], .repeating [.envRx 0x2D, .loop]) := by decide

/-! ### Witnesses: a concrete state and operands meeting the hypotheses of each obligation -/

theorem midFrame_nil_inv : Inv (midFrame []) :=
  ⟨by decide, ⟨by decide, by decide, by decide, by decide⟩, by decide, ⟨by decide, by decide⟩⟩

/-- The invariant reads neither `RXQ` nor the turns to come. -/
theorem midFrame_inv (q : List Byte) : Inv (midFrame q) :=
  let h := midFrame_nil_inv
  ⟨h.config, ⟨h.cursor.ciBound, h.cursor.biBound, h.cursor.ciOfBi, h.cursor.prevWritten⟩, h.buffer,
    ⟨h.outputs.snapshotLength, h.outputs.callsOfDisplay⟩⟩

/-- The last payload byte of a chip's group: where `FULL` may rise (41_decoder R137). -/
theorem oneChip_cursor : CursorInv (oneChip 2 3 (some 0x2B)) :=
  ⟨by decide, by decide, by decide, by decide⟩

theorem witness_DecodeAndEncodeAgree :
    Instr.wf ⟨1, [0, 0, 0]⟩ (.consumeDrop 0x7F) = true ∧ encode (.consumeDrop 0x7F) = some 0x7F ∧
      rowCondition ⟨false, .p0⟩ (.consumeDrop 0x7F) = true := by decide

theorem witness_DecodeAndEncodeAgree_resync :
    Instr.wf ⟨1, [0, 0, 0]⟩ (.consumeResync 0xFF) = true ∧ encode (.consumeResync 0xFF) = some 0xFF ∧
      rowCondition ⟨true, .p3⟩ (.consumeResync 0xFF) = true := by decide

theorem witness_OperationMapCoversEveryByteOnce :
    (oneChip 3 4 (some 0)).cfg.Valid ∧ (oneChip 3 4 (some 0)).ci = (oneChip 3 4 (some 0)).cfg.channels ∧
      (0x80 : Byte).getLsbD 7 = true ∧ (0x7F : Byte).getLsbD 7 = false ∧
      (oneChip 0 0 none).ci < (oneChip 0 0 none).cfg.channels ∧ (oneChip 0 0 none).bi % 4 = 0 ∧
      (oneChip 0 1 (some 0)).ci < (oneChip 0 1 (some 0)).cfg.channels ∧
      (oneChip 0 1 (some 0)).bi % 4 = 1 ∧
      (oneChip 1 2 (some 0)).ci < (oneChip 1 2 (some 0)).cfg.channels ∧
      (oneChip 1 2 (some 0)).bi % 4 = 2 ∧
      (oneChip 2 3 (some 0)).ci < (oneChip 2 3 (some 0)).cfg.channels ∧
      (oneChip 2 3 (some 0)).bi % 4 = 3 := by decide

theorem witness_ResyncRestartsTheFrame :
    (oneChip 3 4 (some 0x0C)).cfg.Valid ∧ (0x80 : Byte).getLsbD 7 = true := by decide

theorem witness_ResyncForgetsTheCursor :
    (twoChips 4 6 (some 0x7F)).cfg.Valid ∧ (0xFF : Byte).getLsbD 7 = true := by decide

theorem witness_PhaseZeroByteIsCached :
    (twoChips 3 4 (some 0x0C)).cfg.Valid ∧ (0x7F : Byte).getLsbD 7 = false ∧
      (twoChips 3 4 (some 0x0C)).ci < (twoChips 3 4 (some 0x0C)).cfg.channels ∧
      (twoChips 3 4 (some 0x0C)).bi % 4 = 0 := by decide

theorem witness_PhaseOneCompletesRed :
    (oneChip 0 1 (some 0xAD)).cfg.Valid ∧ (0x25 : Byte).getLsbD 7 = false ∧
      (oneChip 0 1 (some 0xAD)).ci < (oneChip 0 1 (some 0xAD)).cfg.channels ∧
      (oneChip 0 1 (some 0xAD)).bi % 4 = 1 ∧ (oneChip 0 1 (some 0xAD)).prev = some 0xAD := by decide

theorem witness_PhaseOneCompletesRed_cursor : CursorInv (oneChip 0 1 (some 0xAD)) :=
  ⟨by decide, by decide, by decide, by decide⟩

theorem witness_PhaseTwoCompletesGreen :
    (oneChip 1 2 (some 0x25)).cfg.Valid ∧ (0x2B : Byte).getLsbD 7 = false ∧
      (oneChip 1 2 (some 0x25)).ci < (oneChip 1 2 (some 0x25)).cfg.channels ∧
      (oneChip 1 2 (some 0x25)).bi % 4 = 2 ∧ (oneChip 1 2 (some 0x25)).prev = some 0x25 := by decide

theorem witness_PhaseTwoCompletesGreen_cursor : CursorInv (oneChip 1 2 (some 0x25)) :=
  ⟨by decide, by decide, by decide, by decide⟩

theorem witness_PhaseThreeCompletesBlue :
    (oneChip 2 3 (some 0x2B)).cfg.Valid ∧ (0x0C : Byte).getLsbD 7 = false ∧
      (oneChip 2 3 (some 0x2B)).ci < (oneChip 2 3 (some 0x2B)).cfg.channels ∧
      (oneChip 2 3 (some 0x2B)).bi % 4 = 3 ∧ (oneChip 2 3 (some 0x2B)).prev = some 0x2B := by decide

theorem witness_PhaseThreeCompletesBlue_cursor : CursorInv (oneChip 2 3 (some 0x2B)) := oneChip_cursor

theorem witness_DropChangesCommitAlone :
    (oneChip 3 4 (some 0x0C)).cfg.Valid ∧ (0x7F : Byte).getLsbD 7 = false ∧
      (oneChip 3 4 (some 0x0C)).ci = (oneChip 3 4 (some 0x0C)).cfg.channels := by decide

theorem witness_UnselectedPathIsRefused :
    (oneChip 3 4 (some 0x0C)).cfg.Valid ∧
      Instr.consumeP0 0x15 ∈ [Instr.consumeResync 0x15, .consumeP0 0x15, .consumeP1 0x15,
        .consumeP2 0x15, .consumeP3 0x15, .consumeDrop 0x15] ∧
      Instr.consumeP0 0x15 ≠ decodeByte (selector (oneChip 3 4 (some 0x0C))) 0x15 := by decide

/-- V15 against V1. -/
theorem witness_BitSixReachesOnlyPrev :
    List.Forall₂ (fun x y : Byte => x &&& 0xBF = y &&& 0xBF)
        [0xAD, 0x25, 0x2B, 0x0C] [0xED, 0x65, 0x6B, 0x4C] ∧
      (nextState? (consumeAll [0xAD, 0x25, 0x2B, 0x0C] (oneChip 0 0 none))).isSome = true :=
  ⟨by simp, by decide⟩

theorem witness_CursorMovesOnlyInTheGate :
    (0x15 : Byte).getLsbD 7 = false ∧
      (nextState? (consume 0x15 (oneChip 2 3 (some 0x2B)))).isSome = true ∧
      (oneChip 2 3 (some 0x2B)).ci < (oneChip 2 3 (some 0x2B)).cfg.channels := by decide

theorem witness_CursorMovesOnlyInTheGate_closed :
    (0x15 : Byte).getLsbD 7 = false ∧
      (nextState? (consume 0x15 (oneChip 3 4 (some 0x0C)))).isSome = true ∧
      (oneChip 3 4 (some 0x0C)).cfg.channels ≤ (oneChip 3 4 (some 0x0C)).ci := by decide

theorem witness_PayloadAfterFullChangesNothing :
    (oneChip 3 4 (some 0x0C)).cfg.Valid ∧
      (oneChip 3 4 (some 0x0C)).ci = (oneChip 3 4 (some 0x0C)).cfg.channels ∧
      (∀ b ∈ [(0x3F : Byte), 0x3F, 0x15], b.getLsbD 7 = false) ∧ [(0x3F : Byte), 0x3F, 0x15] ≠ [] := by
  decide

theorem witness_PayloadWritesOnlyTheCellsItPasses :
    (∀ b ∈ [(0x25 : Byte), 0x2B], b.getLsbD 7 = false) ∧
      (nextState? (consumeAll [0x25, 0x2B] (oneChip 0 1 (some 0xAD)))).isSome = true := by decide

theorem witness_EncodedFrameDecodesToItself :
    (twoChips 4 6 (some 0x7F)).cfg.Valid ∧
      [(0xB6 : Byte), 0x5A, 0xCC, 0x01, 0x80, 0x7F].length = (twoChips 4 6 (some 0x7F)).cfg.channels := by
  decide

/-- V11. -/
theorem witness_ChannelCountOfATruncatedFrame :
    (twoChips 0 0 none).cfg.Valid ∧ (0xAD : Byte).getLsbD 7 = true ∧ (0x80 : Byte).getLsbD 7 = true ∧
      (∀ b ∈ [(0x25 : Byte), 0x2B, 0x0C, 0x00, 0x18], b.getLsbD 7 = false) := by decide

theorem witness_TruncatedFrameKeepsTheRest :
    (oneChip 0 0 none).cfg.Valid ∧ [(0xB6 : Byte), 0x5A, 0xCC].length = (oneChip 0 0 none).cfg.channels ∧
      1 ≤ 2 ∧ 2 ≤ (oneChip 0 0 none).cfg.frameBytes ∧ (0x80 : Byte).getLsbD 7 = true := by decide

/-- V18 and V19: a sender with fewer chips, and one with more. -/
theorem witness_MismatchedSenderFillsAPrefix :
    (twoChips 0 0 none).cfg.Valid ∧ 1 ≤ 1 ∧ [(0xB6 : Byte), 0x5A, 0xCC].length = 3 * 1 ∧
      (oneChip 0 0 none).cfg.Valid ∧ 1 ≤ 2 ∧
      [(0xB6 : Byte), 0x5A, 0xCC, 0x01, 0x80, 0x7F].length = 3 * 2 := by decide

/-- Chip 1 of V5, and V7. -/
theorem witness_FrameBytesOfEachChip :
    [(0xB6 : Byte), 0x5A, 0xCC, 0x01, 0x80, 0x7F].length = 3 * 2 ∧
      [(0xB6 : Byte), 0x5A, 0xCC, 0x01, 0x80, 0x7F][3 * 1]? = some 0x01 ∧
      [(0xB6 : Byte), 0x5A, 0xCC, 0x01, 0x80, 0x7F][3 * 1 + 1]? = some 0x80 ∧
      [(0xB6 : Byte), 0x5A, 0xCC, 0x01, 0x80, 0x7F][3 * 1 + 2]? = some 0x7F ∧
      (oneChip 0 0 none).cfg.Valid ∧ [(0xB6 : Byte), 0x5A].length ≠ (oneChip 0 0 none).cfg.channels := by
  decide

theorem witness_FrameIsSevenBitClean :
    1 ≤ 1 ∧ [(0xFF : Byte), 0xFF, 0xFF].length = 3 * 1 ∧
      (frameOf [0xFF, 0xFF, 0xFF])[0]? = some 0xBF ∧ [(0xFF : Byte), 0xFF, 0xFF][0]? = some 0xFF ∧
      (frameOf [0xFF, 0xFF, 0xFF])[3]? = some 0x3F := by decide

theorem witness_EncodeFrameOutputsTheFrame :
    (oneChip 0 0 none).cfg.Valid ∧
      [(0xB6 : Byte), 0x5A, 0xCC].length = (oneChip 0 0 none).cfg.channels := by decide

theorem witness_ModelLevelOutcomes :
    (decoderAt 0 [] 0 0 none).cfg.chipCount = 0 ∧
      (oneChip 0 1 none).cfg.Valid ∧ [(0xB6 : Byte), 0x5A].length ≠ (oneChip 0 1 none).cfg.channels ∧
      (0x25 : Byte).getLsbD 7 = false ∧ (oneChip 0 1 none).ci < (oneChip 0 1 none).cfg.channels ∧
      (oneChip 0 1 none).bi % 4 ≠ 0 ∧ (oneChip 0 1 none).prev = none := by decide

theorem witness_ModelLevelOutcomes_inv : Inv (midFrame []) := midFrame_inv []

theorem witness_WrongBufferInitIsRefused :
    1 ≤ (decoderAt 1 [0, 0] 0 0 none).cfg.chipCount ∧
      (decoderAt 1 [0, 0] 0 0 none).cfg.bufferInit.length ≠
        (decoderAt 1 [0, 0] 0 0 none).cfg.channels ∧
      ∀ init, Instr.showBuffer ≠ .reset init := ⟨by decide, by decide, nofun⟩

/-- The fault, and each refusal. -/
theorem witness_StopsUnderAValidConfiguration :
    (oneChip 0 1 none).cfg.Valid ∧
      faultOf? (exec (.consumeP1 0x25) (oneChip 0 1 none)) = some .prevUnwritten ∧
      refusalOf? (exec (.encodeFrame [0xB6, 0x5A]) (oneChip 0 1 none)) = some .frameLength ∧
      refusalOf? (exec (.reset [0x11, 0x22]) (oneChip 0 1 none)) = some .bufferInitLength ∧
      refusalOf? (exec (.consumeP0 0x25) (oneChip 0 1 none)) = some .notSelected := by decide

theorem witness_OnlyTheNCellsExist : Config.Valid ⟨1, [0, 0, 0]⟩ := by decide

theorem witness_ShowPresentsTheWholeBuffer : (midFrame []).cfg.Valid := (midFrame_inv []).config

theorem witness_ShowTwicePresentsEqualSnapshots : (midFrame [0x80]).cfg.Valid :=
  (midFrame_inv [0x80]).config

theorem witness_IterationConsumesThenShows : Inv (midFrame [0x00, 0x18, 0x80, 0x25]) := midFrame_inv _

theorem witness_IterationLeavesEarlyOnResync :
    Inv (midFrame [0x00, 0x18, 0x80, 0x25]) ∧
      (midFrame [0x00, 0x18, 0x80, 0x25]).rxq = [0x00, 0x18] ++ 0x80 :: [0x25] ∧
      (∀ b ∈ [(0x00 : Byte), 0x18], b.getLsbD 7 = false) ∧ (0x80 : Byte).getLsbD 7 = true :=
  ⟨midFrame_inv _, by decide, by decide, by decide⟩

theorem witness_IterationIsARunOfLoopSteps :
    (midFrame [0x00, 0x80]).loop = .consuming ∧ (midFrame [0x00, 0x80]).inputs = [] ∧
      (midFrame [0x00, 0x80]).env = .repeating [] := by decide

theorem witness_StalledSenderFreezesTheDisplay :
    (midFrame []).cfg.Valid ∧ (midFrame []).rxq = [] := by decide

theorem midFrame_schedule_inv (q : List Byte) (ts : List Turn) (e : Environment) :
    Inv { midFrame q with inputs := ts, env := e } :=
  let h := midFrame_nil_inv
  ⟨h.config, ⟨h.cursor.ciBound, h.cursor.biBound, h.cursor.ciOfBi, h.cursor.prevWritten⟩, h.buffer,
    ⟨h.outputs.snapshotLength, h.outputs.callsOfDisplay⟩⟩

/-- Two payload bytes for every one the loop takes, for ever. -/
theorem witness_EndlessPayloadNeverShows :
    Inv { midFrame [0x3F] with
        inputs := [.loop], env := .repeating [.envRx 0x00, .envRx 0x18, .loop] } ∧
      (midFrame [0x3F]).loop = .consuming ∧ (∀ b ∈ (midFrame [0x3F]).rxq, b.getLsbD 7 = false) ∧
      keepsAhead (midFrame [0x3F]).rxq.length [.loop] = true ∧
      [Turn.envRx 0x00, .envRx 0x18, .loop] ≠ [] ∧
      keepsAhead 0 [.envRx 0x00, .envRx 0x18, .loop] = true :=
  ⟨midFrame_schedule_inv _ _ _, by decide, by decide, by decide, by decide, by decide⟩

theorem witness_EndlessPayloadNeverShows_phase_ends :
    (midFrame []).loop = .consuming ∧
      (nextState? (step (midFrame []))).map State.loop = some .showing := by decide

/-- Neither an empty queue on the loop's turn nor a resync byte keeps the environment ahead. -/
theorem test_keepsAhead_refuses :
    keepsAhead 0 [.loop] = false ∧ keepsAhead 1 [.envRx 0x80] = false := by decide

theorem witness_ShowHappensOnceTheEnvironmentStops :
    Inv { midFrame [0x00] with
        inputs := [.envRx 0x80, .loop, .encodeFrame [1, 2, 3, 4, 5, 6]], env := .repeating [] } ∧
      ∀ t ∈ [Turn.envRx 0x80, .loop, .encodeFrame [1, 2, 3, 4, 5, 6]],
        sessionTurn (midFrame [0x00]).cfg t = true := ⟨midFrame_schedule_inv _ _ _, by decide⟩

theorem witness_ShowHappensWhenAResyncIsQueued :
    Inv { midFrame [0x00, 0x80] with
        inputs := [.loop, .envRx 0x18, .loop, .loop], env := .repeating [.envRx 0x3F] } ∧
      (midFrame [0x00, 0x80]).rxq = [0x00] ++ 0x80 :: [] ∧ (0x80 : Byte).getLsbD 7 = true ∧
      (∀ t ∈ [Turn.loop, .envRx 0x18, .loop, .loop],
        sessionTurn (midFrame [0x00, 0x80]).cfg t = true) ∧
      [(0x00 : Byte)].length + 2 ≤ [Turn.loop, .envRx 0x18, .loop, .loop].count .loop :=
  ⟨midFrame_schedule_inv _ _ _, by decide, by decide, by decide, by decide⟩

theorem witness_NextTurnFollowsTheSchedule :
    { midFrame [] with inputs := [.envRx 0x80, .loop] }.inputs = .envRx 0x80 :: [.loop] ∧
      { midFrame [] with env := .repeating [.envRx 0x00, .loop] }.inputs = [] ∧
      { midFrame [] with env := .repeating [.envRx 0x00, .loop] }.env =
        .repeating (.envRx 0x00 :: [.loop]) ∧
      (midFrame []).inputs = [] ∧ (midFrame []).env = .repeating [] ∧
      { midFrame [] with env := .free 0 }.inputs = [] ∧
      { midFrame [] with env := .free 0 }.env = .free 0 := by decide

/-- V5. -/
theorem witness_ReceivedFrameReachesTheDisplay :
    Inv (midFrame [0xAD, 0x25, 0x2B, 0x0C, 0x00, 0x18, 0x01, 0x3F]) ∧
      [(0xB6 : Byte), 0x5A, 0xCC, 0x01, 0x80, 0x7F].length = (midFrame []).cfg.channels ∧
      (midFrame [0xAD, 0x25, 0x2B, 0x0C, 0x00, 0x18, 0x01, 0x3F]).rxq =
        frameOf [0xB6, 0x5A, 0xCC, 0x01, 0x80, 0x7F] :=
  ⟨midFrame_inv _, by decide, by decide⟩

theorem witness_EnvRxAppendsAtTheTail :
    (oneChip 0 0 none).cfg.Valid ∧
      nextTurn { oneChip 0 0 none with inputs := [.envRx 0x2B, .loop] } =
        (.envRx 0x2B, { oneChip 0 0 none with inputs := [.loop] }) := by decide

theorem witness_ResetSetsEveryElement :
    1 ≤ (midFrame [0x00]).cfg.chipCount ∧
      [(1 : Byte), 2, 3, 4, 5, 6].length = (midFrame [0x00]).cfg.channels := by decide

theorem witness_ResetIsTheBootState :
    1 ≤ (oneChip 0 0 none).cfg.chipCount ∧
      [(0x11 : Byte), 0x22, 0x33].length = (oneChip 0 0 none).cfg.channels ∧
      [(0x11 : Byte), 0x22].length ≠ (oneChip 0 0 none).cfg.channels := by decide

theorem witness_StepRunsTheDecodedByte :
    nextTurn { midFrame [0x00, 0x18] with inputs := [.loop, .envRx 0x80] } =
        (.loop, { midFrame [0x00, 0x18] with inputs := [.envRx 0x80] }) ∧
      (midFrame [0x00, 0x18]).loop = .consuming ∧
      decode (selector (midFrame [0x00, 0x18])) (midFrame [0x00, 0x18]).rxq =
        .ok (.consumeP0 0x00, [0x18]) := by decide

theorem witness_StepWithoutAByte :
    (midFrame []).cfg.Valid ∧ nextTurn (midFrame []) = (.loop, midFrame []) ∧
      (midFrame []).loop = .consuming ∧ (midFrame []).rxq = [] ∧
      nextTurn { midFrame [] with loop := .showing } = (.loop, { midFrame [] with loop := .showing }) ∧
      { midFrame [] with loop := .showing }.loop = .showing ∧
      nextTurn { midFrame [] with inputs := [.envRx 0x80] } = (.envRx 0x80, midFrame []) ∧
      turnInstr (.envRx 0x80) = some (.envRx 0x80) := by decide

theorem witness_CommitIsFollowedByOneShow :
    Inv (midFrame [0x80, 0x25]) ∧ nextTurn (midFrame [0x80, 0x25]) = (.loop, midFrame [0x80, 0x25]) ∧
      (midFrame [0x80, 0x25]).loop = .consuming ∧ (midFrame [0x80, 0x25]).rxq = 0x80 :: [0x25] ∧
      (0x80 : Byte).getLsbD 7 = true :=
  ⟨midFrame_inv _, by decide, by decide, by decide, by decide⟩

theorem witness_CommitIsFollowedByOneShow_showing :
    Inv { midFrame [0x25] with loop := .showing } ∧
      nextTurn { midFrame [0x25] with loop := .showing } =
        (.loop, { midFrame [0x25] with loop := .showing }) ∧
      { midFrame [0x25] with loop := .showing }.loop = .showing :=
  ⟨⟨midFrame_nil_inv.config, ⟨by decide, by decide, by decide, by decide⟩, by decide,
    ⟨by decide, by decide⟩⟩, by decide, by decide⟩

theorem witness_CommitIsFollowedByOneShow_delivery :
    Inv { midFrame [] with inputs := [.envRx 0x25] } ∧
      nextTurn { midFrame [] with inputs := [.envRx 0x25] } = (.envRx 0x25, midFrame []) ∧
      Turn.envRx 0x25 ≠ .loop ∧ sessionTurn (midFrame []).cfg (.envRx 0x25) = true :=
  ⟨midFrame_schedule_inv _ _ (.repeating []), by decide, by decide, by decide⟩

theorem witness_CommitIsFollowedByOneShow_turns :
    (midFrame [0x80, 0x25]).loop = .consuming ∧
      (nextState? (step (midFrame [0x80, 0x25]))).map State.loop = some .showing ∧
      (nextState? (step (midFrame []))).map State.loop = some .showing := by decide

/-- Each group of operations the statement names answers a next state somewhere. -/
theorem witness_OnlyTheOwnerChangesEachElement :
    (nextState? (exec .showBuffer (midFrame []))).isSome = true ∧
      (nextState? (exec (.envRx 0x80) (midFrame []))).isSome = true ∧
      (nextState? (exec (.encodeFrame [1, 2, 3, 4, 5, 6]) (midFrame []))).isSome = true ∧
      (nextState? (exec (.consumeResync 0x80) (midFrame []))).isSome = true ∧
      (nextState? (exec (.consumeP0 0x00) (midFrame []))).isSome = true ∧
      (nextState? (exec (.consumeP1 0x00) (twoChips 3 5 (some 0)))).isSome = true ∧
      (nextState? (exec (.consumeP2 0x00) (twoChips 4 6 (some 0)))).isSome = true ∧
      (nextState? (exec (.consumeP3 0x00) (twoChips 5 7 (some 0)))).isSome = true ∧
      (nextState? (exec (.consumeDrop 0x00) (twoChips 6 8 (some 0)))).isSome = true ∧
      (nextState? (exec .iteration (midFrame [0x00]))).isSome = true ∧
      (nextState? (exec (.reset [1, 2, 3, 4, 5, 6]) (midFrame []))).isSome = true := by decide

theorem witness_EqualReadsAreEqualBuffers :
    (midFrame []).cfg.Valid ∧ Memory.wf (midFrame []).cfg [(0, 0xB6), (5, 0x7F)] = true ∧
      ∀ i, i < (midFrame []).cfg.channels →
        memRead (midFrame []).cfg [(0, 0xB6), (5, 0x7F)] i =
          memRead (midFrame []).cfg [(0, 0xB6), (5, 0x7F)] i := ⟨by decide, by decide, fun _ _ => rfl⟩

theorem witness_ResetMeetsTheInvariant : Config.Valid ⟨1, [0x11, 0x22, 0x33]⟩ := by decide

theorem witness_EveryStepKeepsTheInvariant :
    Inv (midFrame [0x00]) ∧ (nextState? (step (midFrame [0x00]))).isSome = true :=
  ⟨midFrame_inv _, by decide⟩

theorem witness_NoStepStops :
    Inv { midFrame [0x00] with inputs := [.encodeFrame [1, 2, 3, 4, 5, 6], .loop] } ∧
      turnWf (midFrame [0x00]).cfg
        (nextTurn { midFrame [0x00] with inputs := [.encodeFrame [1, 2, 3, 4, 5, 6], .loop] }).1 =
          true := ⟨midFrame_schedule_inv _ _ (.repeating []), by decide⟩

theorem witness_ReachableStatesSatisfyTheCursorLaws :
    Config.Valid ⟨1, [0x11, 0x22, 0x33]⟩ ∧
      (∀ t ∈ [Turn.envRx 0xAD, .loop, .encodeFrame [1, 2, 3], .reset [0, 0, 0]],
        turnWf ⟨1, [0x11, 0x22, 0x33]⟩ t = true) ∧
      envWf ⟨1, [0x11, 0x22, 0x33]⟩ (.repeating [.envRx 0x25, .loop]) = true := by decide

end Sys2Proof.Tests
end

/-! PROOF. What each operation answers, said once: the six decoder operations are `CONSUME` under
their row's condition, and `exec` has one inversion lemma, from which the frames and invariants
follow. -/

namespace Sys2Proof.Machine

/-! ### The decoder operations as `CONSUME` -/

/-- The received byte of a decoder operation; the interface operations have none
(30_encoding R81, R82). -/
def receivedByte? : Instr → Option Byte
  | .consumeResync b => some b
  | .consumeP0 b => some b
  | .consumeP1 b => some b
  | .consumeP2 b => some b
  | .consumeP3 b => some b
  | .consumeDrop b => some b
  | .encodeFrame _ => none
  | .iteration => none
  | .showBuffer => none
  | .envRx _ => none
  | .reset _ => none

theorem receivedByte?_decodeByte (sel : Selector) (b : Byte) :
    receivedByte? (decodeByte sel b) = some b := by
  obtain ⟨_ | _, _ | _ | _ | _⟩ := sel <;> unfold decodeByte <;> split <;> rfl

/-- The operation map answers an operation whose pattern and state condition hold. -/
theorem row_decodeByte (c : Config) (sel : Selector) (b : Byte) :
    ((decodeByte sel b).wf c && rowCondition sel (decodeByte sel b)) = true := by
  by_cases hb : isMarker b = true
  · simp [decodeByte, hb, Instr.wf, rowCondition]
  · obtain ⟨_ | _, _ | _ | _ | _⟩ := sel <;>
      simp [decodeByte, decodePayload, hb, Instr.wf, rowCondition]

/-- What an operation does matters only under a valid configuration. -/
theorem requireConfig_congr {c : Config} {o o' : Result} (h : c.Valid → o = o') :
    requireConfig c o = requireConfig c o' := by
  unfold requireConfig
  split
  · rfl
  · exact h (configRefusal_eq_none ‹_›)

/-- What a named path does matters only where its row holds. -/
theorem requireRow_congr {row : Bool} {o o' : Result} (h : row = true → o = o') :
    requireRow row o = requireRow row o' := by
  cases row
  · rfl
  · exact h rfl

theorem payloadAt_eq_true {p : Phase} {b : Byte} {s : State} :
    payloadAt p b s = true ↔ isMarker b = false ∧ s.ci < s.cfg.channels ∧ phase s = p := by
  simp [payloadAt, and_assoc]

/-- The shared shape of P1, P2 and P3: completing the channel of the phase and ending the byte is
`CONSUME` there. -/
theorem completePath_eq_consume {b : Byte} {s : State} {p : Phase} (hc : s.cfg.Valid) (hp : p ≠ .p0)
    (hrow : payloadAt p b s = true) :
    mapNext (completeChannel (fun x => completedValue p x b) s) (finishPayload b) = consume b s := by
  obtain ⟨hb, hg, rfl⟩ := payloadAt_eq_true.mp hrow
  exact (consume_complete hc hb hg hp).symm

/-- 41_decoder R131: each named operation is `CONSUME` of its byte, run where the byte's pattern and
the row's state condition hold. -/
theorem exec_eq_consume {i : Instr} {b : Byte} (hi : receivedByte? i = some b) (s : State) :
    exec i s = requireConfig s.cfg
      (requireRow (i.wf s.cfg && rowCondition (selector s) i) (consume b s)) := by
  have hassoc (p : Phase) : (!isMarker b && (gateOpen s && phase s == p)) = payloadAt p b s := by
    simp [payloadAt, Bool.and_assoc]
  cases i <;> cases hi <;> refine requireConfig_congr fun hc => ?_ <;>
    simp only [Instr.wf, rowCondition, Bool.and_true, selector, hassoc] <;>
    refine requireRow_congr fun hrow => ?_
  case consumeResync => exact (consume_marker hc hrow).symm
  case consumeP0 =>
    obtain ⟨hb, hg, hp⟩ := payloadAt_eq_true.mp hrow
    exact (consume_phase0 hc hb hg hp).symm
  case consumeP1 => exact completePath_eq_consume (p := .p1) hc (by decide) hrow
  case consumeP2 => exact completePath_eq_consume (p := .p2) hc (by decide) hrow
  case consumeP3 => exact completePath_eq_consume (p := .p3) hc (by decide) hrow
  case consumeDrop =>
    obtain ⟨hb, hg⟩ : isMarker b = false ∧ s.cfg.channels ≤ s.ci := by
      simpa [gateOpen] using hrow
    exact (consume_closed hc hb hg).symm

/-- A decoder operation that answers a next state is a `CONSUME` where its row holds. -/
theorem exec_received_eq_next {i : Instr} {b : Byte} {s t : State} (hi : receivedByte? i = some b)
    (h : exec i s = .next t) :
    (i.wf s.cfg = true ∧ rowCondition (selector s) i = true) ∧ consume b s = .next t := by
  rw [exec_eq_consume hi] at h
  obtain ⟨-, h⟩ := requireConfig_eq_next h
  obtain ⟨hrow, h⟩ := requireRow_eq_next h
  exact ⟨by simpa using hrow, h⟩

/-- `CONSUME` checks the configuration itself. -/
theorem requireConfig_consume (b : Byte) (s : State) :
    requireConfig s.cfg (consume b s) = consume b s := by
  unfold consume requireConfig
  split <;> rfl

/-- The operation a byte selects does what `CONSUME` does. -/
theorem exec_decodeByte (b : Byte) (s : State) :
    exec (decodeByte (selector s) b) s = consume b s := by
  rw [exec_eq_consume (receivedByte?_decodeByte _ _), row_decodeByte, requireRow_true,
    requireConfig_consume]

/-! ### The interface operations -/

theorem execEncodeFrame_eq_next {v : List Byte} {s t : State} (h : execEncodeFrame v s = .next t) :
    t = { s with encOut := s.encOut ++ frameOf v } := by
  obtain ⟨-, h⟩ := requireConfig_eq_next h
  split at h
  · injection h with h; exact h.symm
  · cases h

theorem execEncodeFrame_next {v : List Byte} {s : State} (hc : s.cfg.Valid)
    (hv : v.length = s.cfg.channels) :
    execEncodeFrame v s = .next { s with encOut := s.encOut ++ frameOf v } := by
  simp [execEncodeFrame, requireConfig_of_valid hc, hv]

theorem execShowBuffer_eq_next {s t : State} (h : execShowBuffer s = .next t) :
    ∃ ws, snapshot s = some ws ∧ t = emitShow ws s :=
  presentBuffer_eq_next (requireConfig_eq_next h).2

theorem execShowBuffer_next {s : State} {ws : List Byte} (hc : s.cfg.Valid)
    (hws : snapshot s = some ws) : execShowBuffer s = .next (emitShow ws s) := by
  rw [execShowBuffer, requireConfig_of_valid hc, presentBuffer_next hws]

theorem execEnvRx_eq_next {b : Byte} {s t : State} (h : execEnvRx b s = .next t) :
    t = setRxq (s.rxq ++ [b]) s := by
  obtain ⟨-, h⟩ := requireConfig_eq_next h
  injection h with h
  exact h.symm

theorem execEnvRx_next {s : State} (hc : s.cfg.Valid) (b : Byte) :
    execEnvRx b s = .next (setRxq (s.rxq ++ [b]) s) :=
  requireConfig_of_valid hc _

/-- The state RESET answers: the boot state of the new parameters, with the host's output and the
turns to come left (70_reset R230, R233; log 13). -/
def resetState (init : List Byte) (s : State) : State :=
  { State.boot { s.cfg with bufferInit := init } with
    encOut := s.encOut, inputs := s.inputs, env := s.env }

theorem execReset_eq_next {init : List Byte} {s t : State} (h : execReset init s = .next t) :
    ({ s.cfg with bufferInit := init } : Config).Valid ∧ t = resetState init s := by
  obtain ⟨hc, h⟩ := requireConfig_eq_next h
  injection h with h
  exact ⟨hc, h.symm⟩

theorem execReset_next {init : List Byte} {s : State} (hc : s.cfg.Valid)
    (hl : init.length = s.cfg.channels) : execReset init s = .next (resetState init s) :=
  requireConfig_of_valid (c := { s.cfg with bufferInit := init }) ⟨hc.1, hl⟩ _

/-- All that an iteration can do when it answers a next state: consume bytes from the queue in order, then
present the buffer (42_commit R170). -/
theorem execIteration_eq_next {s t : State} (h : execIteration s = .next t) :
    ∃ taken left u ws, s.rxq = taken ++ left ∧
      consumeAll taken (setRxq left (setLoop .consuming s)) = .next u ∧
      snapshot (setLoop .showing u) = some ws ∧ t = emitShow ws (setLoop .showing u) := by
  obtain ⟨-, h⟩ := requireConfig_eq_next h
  obtain ⟨u, hu, hp⟩ := andThen_eq_next h
  obtain ⟨taken, left, hq, -, hu, -⟩ := consumePhase_cases (setLoop_rxq _ _) hu
  obtain ⟨ws, hws, rfl⟩ := presentBuffer_eq_next hp
  exact ⟨taken, left, u, ws, hq, hu, hws, rfl⟩

/-- All that an operation can do when it answers a next state. -/
theorem exec_cases {i : Instr} {s t : State} (h : exec i s = .next t) :
    (∃ b, receivedByte? i = some b ∧ i.wf s.cfg = true ∧ rowCondition (selector s) i = true ∧
      consume b s = .next t) ∨
    (∃ v, i = .encodeFrame v ∧ t = { s with encOut := s.encOut ++ frameOf v }) ∨
    (i = .iteration ∧ ∃ taken left u ws, s.rxq = taken ++ left ∧
      consumeAll taken (setRxq left (setLoop .consuming s)) = .next u ∧
      snapshot (setLoop .showing u) = some ws ∧ t = emitShow ws (setLoop .showing u)) ∨
    (i = .showBuffer ∧ ∃ ws, snapshot s = some ws ∧ t = emitShow ws s) ∨
    (∃ b, i = .envRx b ∧ t = setRxq (s.rxq ++ [b]) s) ∨
    (∃ init, i = .reset init ∧ ({ s.cfg with bufferInit := init } : Config).Valid ∧
      t = resetState init s) := by
  cases hi : receivedByte? i with
  | some b =>
    obtain ⟨⟨hwf, hrow⟩, hc⟩ := exec_received_eq_next hi h
    exact .inl ⟨b, rfl, hwf, hrow, hc⟩
  | none =>
    refine .inr ?_
    cases i with
    | encodeFrame v => exact .inl ⟨v, rfl, execEncodeFrame_eq_next h⟩
    | iteration => exact .inr (.inl ⟨rfl, execIteration_eq_next h⟩)
    | showBuffer => exact .inr (.inr (.inl ⟨rfl, execShowBuffer_eq_next h⟩))
    | envRx b => exact .inr (.inr (.inr (.inl ⟨b, rfl, execEnvRx_eq_next h⟩)))
    | reset init => exact .inr (.inr (.inr (.inr ⟨init, rfl, execReset_eq_next h⟩)))
    | _ => cases hi

/-- Settles O25. -/
theorem encodeFrameOutputsTheFrame : Obligations.EncodeFrameOutputsTheFrame :=
  fun _ _ hc hv => execEncodeFrame_next hc hv

end Sys2Proof.Machine

/-! PROOF. The invariant of a reachable state under every update, operation and step (10_state R34
to R36). -/

namespace Sys2Proof.Machine

/-! ### The invariant under the named updates -/

/-- The invariant reads the configuration, the cursor, the buffer and the observations only. -/
theorem Inv.of_eq {s t : State} (hi : Inv s) (hcfg : t.cfg = s.cfg) (hci : t.ci = s.ci)
    (hbi : t.bi = s.bi) (hprev : t.prev = s.prev) (hbuf : t.buf = s.buf)
    (hdisplay : t.display = s.display) (hcalls : t.sinkCalls = s.sinkCalls) : Inv t := by
  obtain ⟨hc, ⟨h1, h2, h3, h4⟩, hb, ⟨h5, h6⟩⟩ := hi
  rw [← hcfg] at hc h1 h2 hb h5
  rw [← hci] at h1 h3
  rw [← hbi] at h2 h3 h4
  rw [← hprev] at h4
  rw [← hbuf] at hb
  rw [← hdisplay] at h5 h6
  rw [← hcalls] at h6
  exact ⟨hc, ⟨h1, h2, h3, h4⟩, hb, ⟨h5, h6⟩⟩

theorem inv_setRxq {s : State} (hi : Inv s) (q : List Byte) : Inv (setRxq q s) :=
  hi.of_eq rfl rfl rfl rfl rfl rfl rfl

theorem inv_setLoop {s : State} (hi : Inv s) (p : LoopPos) : Inv (setLoop p s) :=
  hi.of_eq rfl rfl rfl rfl rfl rfl rfl

theorem inv_setSchedule {s : State} (hi : Inv s) (ts : List Turn) (e : Environment) :
    Inv (setSchedule ts e s) :=
  hi.of_eq rfl rfl rfl rfl rfl rfl rfl

theorem inv_leaveOnCommit {s : State} (hi : Inv s) : Inv (leaveOnCommit s) := by
  unfold leaveOnCommit
  split
  · exact inv_setLoop hi _
  · exact hi

theorem inv_nextTurn {s : State} (hi : Inv s) : Inv (nextTurn s).2 := by
  obtain ⟨ts, e, h⟩ := nextTurn_state s
  exact h ▸ inv_setSchedule hi ts e

/-- Presenting the buffer adds one whole snapshot and its calls (42_commit R173). -/
theorem inv_emitShow {s : State} {ws : List Byte} (hi : Inv s) (hws : snapshot s = some ws) :
    Inv (emitShow ws s) := by
  obtain ⟨hc, ⟨h1, h2, h3, h4⟩, hb, ⟨hlen, hcalls⟩⟩ := hi
  refine ⟨hc, ⟨h1, h2, h3, h4⟩, hb, ⟨fun vs hvs => ?_, by simp [hcalls]⟩⟩
  rcases List.mem_append.mp hvs with hvs | hvs
  · exact hlen vs hvs
  · obtain rfl := List.mem_singleton.mp hvs
    exact (snapshot_spec hws).1

theorem inv_boot {c : Config} (hc : c.Valid) : Inv (State.boot c) :=
  ⟨hc, ⟨Nat.zero_le _, Nat.zero_le _, by simp [State.boot], by simp [State.boot]⟩, wf_nil c,
    ⟨nofun, rfl⟩⟩

theorem inv_resetState {init : List Byte} {s : State}
    (hc : ({ s.cfg with bufferInit := init } : Config).Valid) : Inv (resetState init s) :=
  (inv_boot hc).of_eq rfl rfl rfl rfl rfl rfl rfl

/-! ### Operations and steps keep the invariant -/

theorem exec_keeps_inv {i : Instr} {s t : State} (h : exec i s = .next t) (hi : Inv s) : Inv t := by
  obtain ⟨b, -, -, -, hb⟩ | ⟨v, -, rfl⟩ | ⟨-, taken, left, u, ws, -, hu, hws, rfl⟩ |
    ⟨-, ws, hws, rfl⟩ | ⟨b, -, rfl⟩ | ⟨init, -, hc, rfl⟩ := exec_cases h
  · exact consume_keeps_inv hb hi
  · exact hi.of_eq rfl rfl rfl rfl rfl rfl rfl
  · have hu' : Inv u := consumeAll_keeps_inv hu (inv_setRxq (inv_setLoop hi _) _)
    exact inv_emitShow (inv_setLoop hu' _) hws
  · exact inv_emitShow hi hws
  · exact inv_setRxq hi _
  · exact inv_resetState hc

/-- All that a step of the device loop can do when it answers a next state: a SHOW, one consumed
byte, or the end of the consumption phase (42_commit R170 to R173). -/
theorem loopStep_cases {s t : State} (h : loopStep s = .next t) :
    (s.loop = .showing ∧ ∃ ws, snapshot s = some ws ∧ t = setLoop .consuming (emitShow ws s)) ∨
    (s.loop = .consuming ∧ ∃ b rest u, s.rxq = b :: rest ∧ consume b (setRxq rest s) = .next u ∧
      t = leaveOnCommit u) ∨
    (s.loop = .consuming ∧ s.rxq = [] ∧ t = setLoop .showing s) := by
  cases hl : s.loop with
  | showing =>
    rw [loopStep_showing hl] at h
    obtain ⟨u, hu, rfl⟩ := mapNext_eq_next h
    obtain ⟨ws, hws, rfl⟩ := execShowBuffer_eq_next hu
    exact .inl ⟨rfl, ws, hws, rfl⟩
  | consuming =>
    cases hq : s.rxq with
    | nil =>
      rw [loopStep_empty hl hq] at h
      obtain ⟨-, h⟩ := requireConfig_eq_next h
      injection h with h
      exact .inr (.inr ⟨rfl, rfl, h.symm⟩)
    | cons b rest =>
      rw [loopStep_byte hl hq] at h
      obtain ⟨u, hu, rfl⟩ := mapNext_eq_next h
      exact .inr (.inl ⟨rfl, b, rest, u, rfl, (exec_decodeByte b (setRxq rest s)).symm.trans hu, rfl⟩)

theorem loopStep_keeps_inv {s t : State} (h : loopStep s = .next t) (hi : Inv s) : Inv t := by
  obtain ⟨-, ws, hws, rfl⟩ | ⟨-, b, rest, u, -, hu, rfl⟩ | ⟨-, -, rfl⟩ := loopStep_cases h
  · exact inv_setLoop (inv_emitShow hi hws) _
  · exact inv_leaveOnCommit (consume_keeps_inv hu (inv_setRxq hi rest))
  · exact inv_setLoop hi _

/-- A step is the loop's own or an external turn's operation, after the turn is taken. -/
theorem step_cases {s t : State} (h : step s = .next t) :
    (turnInstr (nextTurn s).1 = none ∧ loopStep (nextTurn s).2 = .next t) ∨
      ∃ i, turnInstr (nextTurn s).1 = some i ∧ exec i (nextTurn s).2 = .next t := by
  unfold step at h
  split at h
  · exact .inl ⟨‹_›, h⟩
  · exact .inr ⟨_, ‹_›, h⟩

theorem step_keeps_inv {s t : State} (h : step s = .next t) (hi : Inv s) : Inv t := by
  obtain ⟨-, h⟩ | ⟨i, -, h⟩ := step_cases h
  · exact loopStep_keeps_inv h (inv_nextTurn hi)
  · exact exec_keeps_inv h (inv_nextTurn hi)

/-- Settles O51: each operation of `exec_cases` and each branch of `loopStep_cases` keeps `Inv`. -/
theorem everyStepKeepsTheInvariant : Obligations.EveryStepKeepsTheInvariant :=
  fun _ _ hi h => step_keeps_inv h hi

end Sys2Proof.Machine

/-! PROOF. How a payload byte moves the cursor (10_state R34, 41_decoder R143). -/

namespace Sys2Proof.Machine

/-- The phase steps 0, 1, 2, 3, 0 as `BI` rises by 1 (10_state R23). -/
theorem phaseOf_succ (bi : Nat) :
    (phaseOf bi = .p0 ∧ phaseOf (bi + 1) = .p1) ∨ (phaseOf bi = .p1 ∧ phaseOf (bi + 1) = .p2) ∨
      (phaseOf bi = .p2 ∧ phaseOf (bi + 1) = .p3) ∨ (phaseOf bi = .p3 ∧ phaseOf (bi + 1) = .p0) := by
  simp only [phaseOf_eq_p0, phaseOf_eq_p1, phaseOf_eq_p2, phaseOf_eq_p3]
  omega

/-- Settles O15: a payload byte takes one of the last three paths of `consume_cases`. -/
theorem cursorMovesOnlyInTheGate : Obligations.CursorMovesOnlyInTheGate := by
  intro s t b hb h
  obtain ⟨-, ⟨hm, -⟩ | ⟨-, hg, rfl⟩ | ⟨-, hg, hp, rfl⟩ | ⟨-, hg, hp, p, m, -, -, rfl⟩⟩ :=
    consume_cases h
  · exact absurd (hb.symm.trans hm) Bool.false_ne_true
  · exact ⟨fun _ => ⟨rfl, rfl, rfl, rfl⟩, fun h => absurd h (by omega)⟩
  · have hp0 := phaseOf_eq_p0.mp hp
    have hp1 : phaseOf (s.bi + 1) = .p1 := phaseOf_eq_p1.mpr (by omega)
    exact ⟨fun h => absurd h (by omega), fun _ => ⟨rfl, rfl, .inl ⟨hp, hp1, rfl, rfl⟩⟩⟩
  · refine ⟨fun h => absurd h (by omega), fun _ => ⟨rfl, rfl, .inr ?_⟩⟩
    obtain ⟨h0, -⟩ | ⟨h1, h1'⟩ | ⟨h2, h2'⟩ | ⟨h3, h3'⟩ := phaseOf_succ s.bi
    · exact absurd h0 hp
    · exact .inl ⟨h1, h1', rfl⟩
    · exact .inr (.inl ⟨h2, h2', rfl⟩)
    · exact .inr (.inr ⟨h3, h3', rfl⟩)

end Sys2Proof.Machine

/-! PROOF. What each operation leaves unchanged (10_state R20; 20_memory R52, R53). -/

namespace Sys2Proof.Machine

/-- A decoder operation that completes no channel leaves the buffer (20_memory R52). -/
theorem consume_buf_of_no_channel {b : Byte} {s t : State} (h : consume b s = .next t)
    (hn : isMarker b = true ∨ s.cfg.channels ≤ s.ci ∨ phase s = .p0) : t.buf = s.buf := by
  obtain ⟨-, ⟨-, rfl⟩ | ⟨-, -, rfl⟩ | ⟨-, -, -, rfl⟩ | ⟨hb, hg, hp, -⟩⟩ := consume_cases h
  · rfl
  · rfl
  · rfl
  · obtain hm | hge | hp0 := hn
    · exact absurd hm (by simp [hb])
    · omega
    · exact absurd hp0 hp

/-- `CONSUME` writes no cell but `CI` (20_memory R53). -/
theorem consume_memRead_other {b : Byte} {s t : State} (h : consume b s = .next t) {j : Nat}
    (hj : j ≠ s.ci) : memRead t.cfg t.buf j = memRead s.cfg s.buf j := by
  obtain ⟨-, ⟨-, rfl⟩ | ⟨-, -, rfl⟩ | ⟨-, -, -, rfl⟩ | ⟨-, -, -, p, m, -, hm, rfl⟩⟩ := consume_cases h
  · rfl
  · rfl
  · rfl
  · exact memRead_memWrite_other hj hm

/-- The rows of RESYNC, P0 and DROP complete no channel. -/
theorem exec_buf_of_no_channel {i : Instr} {b : Byte} {s t : State} (h : exec i s = .next t)
    (hi : i = .consumeResync b ∨ i = .consumeP0 b ∨ i = .consumeDrop b) : t.buf = s.buf := by
  obtain rfl | rfl | rfl := hi
  · obtain ⟨⟨hwf, -⟩, hc⟩ := exec_received_eq_next rfl h
    exact consume_buf_of_no_channel hc (.inl hwf)
  · obtain ⟨⟨-, hrow⟩, hc⟩ := exec_received_eq_next rfl h
    obtain ⟨-, hp⟩ : gateOpen s = true ∧ phase s = .p0 := by
      simpa only [rowCondition, selector, Bool.and_eq_true, beq_iff_eq] using hrow
    exact consume_buf_of_no_channel hc (.inr (.inr hp))
  · obtain ⟨⟨-, hrow⟩, hc⟩ := exec_received_eq_next rfl h
    have hg : s.cfg.channels ≤ s.ci := by simpa [rowCondition, selector, gateOpen] using hrow
    exact consume_buf_of_no_channel hc (.inr (.inl hg))

/-- Settles O47: the frame of each operation, read off its form in `exec_cases`. -/
theorem onlyTheOwnerChangesEachElement : Obligations.OnlyTheOwnerChangesEachElement := by
  intro s t i h
  obtain ⟨b, hi, -, -, hb⟩ | ⟨v, rfl, rfl⟩ | ⟨rfl, taken, left, u, ws, hq, hu, -, rfl⟩ |
    ⟨rfl, ws, -, rfl⟩ | ⟨b, rfl, rfl⟩ | ⟨init, rfl, -, rfl⟩ := exec_cases h
  · obtain ⟨hcfg, hloop, hrxq, hdisplay, hcalls, henc, hinputs, henv⟩ := consume_frame hb
    refine ⟨congrArg _ hcfg, fun _ => ⟨hcfg, [], by simp [hdisplay]⟩, ?_,
      fun ⟨_, hi'⟩ => exec_buf_of_no_channel h hi', fun _ _ hj => consume_memRead_other hb hj,
      fun _ => hloop, fun _ => hrxq, ?_, ?_, ?_, fun _ => ⟨hdisplay, hcalls⟩, fun _ => henc,
      hinputs, henv⟩
    · rintro (rfl | ⟨_, rfl⟩ | ⟨_, rfl⟩) <;> cases hi
    · rintro _ rfl; cases hi
    · rintro rfl; cases hi
    · rintro _ rfl; cases hi
  · simp
  · obtain ⟨hcfg, -, hrxq, hdisplay, -, henc, hinputs, henv⟩ := consumeAll_frame hu
    have hleft : u.rxq = left := hrxq
    simp [hcfg, hdisplay, henc, hinputs, henv, hq, hleft]
  · simp
  · simp
  · simp [resetState, State.boot]

end Sys2Proof.Machine

/-! PROOF. The observations are outputs only: forgetting them commutes with every operation, up to
the observations the operation itself adds (10_state R30). -/

namespace Sys2Proof.Machine

theorem mapNext_mapNext (o : Result) (f g : State → State) :
    mapNext (mapNext o f) g = mapNext o fun s => g (f s) := by
  cases o <;> rfl

theorem mapNext_forgetOutputs_idem (o : Result) :
    mapNext (mapNext o forgetOutputs) forgetOutputs = mapNext o forgetOutputs :=
  mapNext_mapNext o _ _

theorem mapNext_requireConfig (c : Config) (o : Result) (f : State → State) :
    mapNext (requireConfig c o) f = requireConfig c (mapNext o f) := by
  unfold requireConfig
  split <;> rfl

theorem mapNext_requireRow (row : Bool) (o : Result) (f : State → State) :
    mapNext (requireRow row o) f = requireRow row (mapNext o f) := by
  cases row <;> rfl

theorem consume_forgetOutputs (b : Byte) (s : State) :
    consume b (forgetOutputs s) = mapNext (consume b s) forgetOutputs := by
  refine (consume_withOuter b s.loop s.rxq [] [] [] s.inputs s.env s).trans ?_
  cases ht : consume b s with
  | fault f => rfl
  | refused r => rfl
  | next t =>
    obtain ⟨-, hloop, hrxq, -, -, -, hinputs, henv⟩ := consume_frame ht
    simp only [mapNext_next, withOuter, forgetOutputs, hloop, hrxq, hinputs, henv]

theorem consumePhase_forgetOutputs (q : List Byte) (s : State) :
    consumePhase q (forgetOutputs s) = mapNext (consumePhase q s) forgetOutputs := by
  induction q generalizing s with
  | nil => rfl
  | cons b rest ih =>
    have hset : setRxq rest (forgetOutputs s) = forgetOutputs (setRxq rest s) := rfl
    simp only [consumePhase, hset, consume_forgetOutputs]
    cases consume b (setRxq rest s) with
    | fault f => rfl
    | refused r => rfl
    | next t =>
      simp only [mapNext_next, andThen_next, forgetOutputs_commit]
      by_cases hc : t.commit = true
      · simp [hc]
      · simp [hc, ih t]

theorem presentBuffer_forgetOutputs (s : State) :
    mapNext (presentBuffer (forgetOutputs s)) forgetOutputs =
      mapNext (presentBuffer s) forgetOutputs := by
  have hsnap : snapshot (forgetOutputs s) = snapshot s := rfl
  unfold presentBuffer
  rw [hsnap]
  cases snapshot s <;> rfl

theorem execIteration_forgetOutputs (s : State) :
    mapNext (execIteration (forgetOutputs s)) forgetOutputs =
      mapNext (execIteration s) forgetOutputs := by
  have hset : setLoop .consuming (forgetOutputs s) = forgetOutputs (setLoop .consuming s) := rfl
  simp only [execIteration, mapNext_requireConfig, hset, forgetOutputs_rxq, forgetOutputs_cfg,
    consumePhase_forgetOutputs]
  cases consumePhase s.rxq (setLoop .consuming s) with
  | fault f => rfl
  | refused r => rfl
  | next t => exact congrArg _ (presentBuffer_forgetOutputs (setLoop .showing t))

theorem execEncodeFrame_forgetOutputs (v : List Byte) (s : State) :
    mapNext (execEncodeFrame v (forgetOutputs s)) forgetOutputs =
      mapNext (execEncodeFrame v s) forgetOutputs := by
  by_cases hv : v.length = s.cfg.channels
  · have hv' : v.length = (forgetOutputs s).cfg.channels := hv
    simp only [execEncodeFrame, mapNext_requireConfig, if_pos hv, if_pos hv', mapNext_next]
    rfl
  · have hv' : ¬ v.length = (forgetOutputs s).cfg.channels := hv
    simp only [execEncodeFrame, mapNext_requireConfig, if_neg hv, if_neg hv', mapNext_refused]
    rfl

/-- Settles O48: a decoder operation is `CONSUME`, which commutes with forgetting; each interface
operation has its own lemma. -/
theorem outputsAreNeverRead : Obligations.OutputsAreNeverRead := by
  intro s i
  cases hi : receivedByte? i with
  | some b =>
    have hsel : selector (forgetOutputs s) = selector s := rfl
    simp only [exec_eq_consume hi, mapNext_requireConfig, mapNext_requireRow, hsel,
      forgetOutputs_cfg, consume_forgetOutputs, mapNext_forgetOutputs_idem]
  | none =>
    cases i with
    | encodeFrame v => exact execEncodeFrame_forgetOutputs v s
    | iteration => exact execIteration_forgetOutputs s
    | showBuffer =>
      simp only [exec_showBuffer, execShowBuffer, mapNext_requireConfig, forgetOutputs_cfg,
        presentBuffer_forgetOutputs]
    | envRx b =>
      simp only [exec_envRx, execEnvRx, mapNext_requireConfig, mapNext_next]
      rfl
    | reset init =>
      simp only [exec_reset, execReset, mapNext_requireConfig, mapNext_next]
      rfl
    | _ => cases hi

end Sys2Proof.Machine

/-! PROOF. Runs from boot: on a schedule of turns with operands of the right length every step of a
state of the invariant answers a next state, and the schedule stays such a one (60_exceptions R200). -/

namespace Sys2Proof.Machine

/-! ### Progress -/

/-- An external turn with an operand of the right length completes under a valid configuration. -/
theorem exec_turn_completes {s : State} {x : Turn} {i : Instr} (hc : s.cfg.Valid)
    (hi : turnInstr x = some i) (hx : turnWf s.cfg x = true) : ∃ t, exec i s = .next t := by
  cases x with
  | loop => cases hi
  | envRx b => obtain rfl := Option.some.inj hi; exact ⟨_, execEnvRx_next hc b⟩
  | encodeFrame v =>
    obtain rfl := Option.some.inj hi
    exact ⟨_, execEncodeFrame_next hc (by simpa [turnWf, turnInstr, Instr.wf] using hx)⟩
  | reset init =>
    obtain rfl := Option.some.inj hi
    exact ⟨_, execReset_next hc (by simpa [turnWf, turnInstr, Instr.wf] using hx)⟩

/-- On a state of the invariant the loop's own step completes. -/
theorem loopStep_completes {s : State} (hi : Inv s) : ∃ t, loopStep s = .next t := by
  cases hl : s.loop with
  | showing =>
    obtain ⟨ws, hws⟩ := snapshot_isSome hi.config
    exact ⟨_, by rw [loopStep_showing hl, exec_showBuffer, execShowBuffer_next hi.config hws,
      mapNext_next]⟩
  | consuming =>
    cases hq : s.rxq with
    | nil => exact ⟨_, by rw [loopStep_empty hl hq, endPoll, requireConfig_of_valid hi.config]⟩
    | cons b rest =>
      obtain ⟨t, ht⟩ := consume_completes (inv_setRxq hi rest) b
      have hexec : exec (decodeByte (selector s) b) (setRxq rest s) = .next t :=
        (exec_decodeByte b (setRxq rest s)).trans ht
      exact ⟨_, by rw [loopStep_byte hl hq, hexec, mapNext_next]⟩

theorem nextTurn_cfg (s : State) : (nextTurn s).2.cfg = s.cfg := by
  obtain ⟨ts, e, h⟩ := nextTurn_state s
  rw [h, setSchedule_cfg]

theorem step_completes {s : State} (hi : Inv s) (hx : turnWf s.cfg (nextTurn s).1 = true) :
    ∃ t, step s = .next t := by
  have hi' := inv_nextTurn hi
  cases hturn : turnInstr (nextTurn s).1 with
  | none =>
    obtain ⟨t, ht⟩ := loopStep_completes hi'
    exact ⟨t, by simp only [step, hturn, ht]⟩
  | some i =>
    obtain ⟨t, ht⟩ := exec_turn_completes hi'.config hturn (nextTurn_cfg s ▸ hx)
    exact ⟨t, by simp only [step, hturn, ht]⟩

/-! ### The schedule -/

/-- Whether a turn is well-formed depends on `C` only, which no operation changes (10_state R32). -/
theorem turnWf_congr {c d : Config} (h : c.chipCount = d.chipCount) (x : Turn) :
    turnWf c x = turnWf d x := by
  cases x <;> simp [turnWf, turnInstr, Instr.wf, Config.channels, h]

theorem turnWf_drawnTurn (c : Config) (n : Nat) : turnWf c (drawnTurn n) = true := by
  unfold drawnTurn
  split <;> rfl

/-- What a run from boot under the parameters `c` keeps: the invariant, `C`, and a schedule of
well-formed turns. -/
structure RunInv (c : Config) (s : State) : Prop where
  inv : Inv s
  chips : s.cfg.chipCount = c.chipCount
  turns : ∀ x ∈ s.inputs, turnWf c x = true
  environment : envWf c s.env = true

theorem runInv_setSchedule {c : Config} {s : State} (h : RunInv c s) {ts : List Turn}
    {e : Environment} (hts : ∀ x ∈ ts, turnWf c x = true) (he : envWf c e = true) :
    RunInv c (setSchedule ts e s) :=
  ⟨inv_setSchedule h.inv ts e, h.chips, hts, he⟩

/-- The turn taken from a well-formed schedule is well-formed, and so is the schedule left. -/
theorem runInv_nextTurn {c : Config} {s : State} (h : RunInv c s) :
    turnWf c (nextTurn s).1 = true ∧ RunInv c (nextTurn s).2 := by
  have henv := h.environment
  cases hin : s.inputs with
  | cons x xs =>
    have hxs := h.turns
    rw [hin, List.forall_mem_cons] at hxs
    rw [nextTurn_of_cons hin]
    exact ⟨hxs.1, runInv_setSchedule h hxs.2 henv⟩
  | nil =>
    cases he : s.env with
    | free n =>
      rw [nextTurn_of_free hin he]
      exact ⟨turnWf_drawnTurn c n, runInv_setSchedule h (by simp) rfl⟩
    | repeating ts =>
      cases ts with
      | nil =>
        rw [nextTurn_of_quiet hin he]
        exact ⟨rfl, h⟩
      | cons x xs =>
        have hxs : ∀ y ∈ x :: xs, turnWf c y = true := by simpa [he, envWf] using henv
        rw [nextTurn_of_repeat hin he]
        rw [List.forall_mem_cons] at hxs
        exact ⟨hxs.1, runInv_setSchedule h hxs.2 henv⟩

theorem exec_keeps_schedule {i : Instr} {s t : State} (h : exec i s = .next t) :
    t.cfg.chipCount = s.cfg.chipCount ∧ t.inputs = s.inputs ∧ t.env = s.env := by
  obtain ⟨hchips, -, -, -, -, -, -, -, -, -, -, -, hinputs, henv⟩ :=
    onlyTheOwnerChangesEachElement s t i h
  exact ⟨hchips, hinputs, henv⟩

theorem loopStep_keeps_schedule {s t : State} (h : loopStep s = .next t) :
    t.cfg = s.cfg ∧ t.inputs = s.inputs ∧ t.env = s.env := by
  obtain ⟨-, ws, -, rfl⟩ | ⟨-, b, rest, u, -, hu, rfl⟩ | ⟨-, -, rfl⟩ := loopStep_cases h
  · exact ⟨rfl, rfl, rfl⟩
  · obtain ⟨hcfg, -, -, -, -, -, hinputs, henv⟩ := consume_frame hu
    simp [hcfg, hinputs, henv]
  · exact ⟨rfl, rfl, rfl⟩

/-- A step leaves `C` and changes the schedule by taking its turn only. -/
theorem step_keeps_schedule {s t : State} (h : step s = .next t) :
    t.cfg.chipCount = (nextTurn s).2.cfg.chipCount ∧ t.inputs = (nextTurn s).2.inputs ∧
      t.env = (nextTurn s).2.env := by
  obtain ⟨-, h⟩ | ⟨i, -, h⟩ := step_cases h
  · obtain ⟨hcfg, hinputs, henv⟩ := loopStep_keeps_schedule h
    exact ⟨congrArg _ hcfg, hinputs, henv⟩
  · exact exec_keeps_schedule h

theorem runInv_step {c : Config} {s : State} (h : RunInv c s) :
    ∃ t, step s = .next t ∧ RunInv c t := by
  obtain ⟨hx, hnext⟩ := runInv_nextTurn h
  obtain ⟨t, ht⟩ := step_completes h.inv ((turnWf_congr h.chips _).trans hx)
  obtain ⟨hchips, hinputs, henv⟩ := step_keeps_schedule ht
  exact ⟨t, ht, step_keeps_inv ht h.inv, hchips.trans hnext.chips, hinputs ▸ hnext.turns,
    henv ▸ hnext.environment⟩

theorem runInv_runSteps {c : Config} {s : State} (h : RunInv c s) (k : Nat) :
    ∃ t, runSteps k s = .next t ∧ RunInv c t := by
  induction k generalizing s with
  | zero => exact ⟨s, rfl, h⟩
  | succ k ih =>
    obtain ⟨u, hu, hu'⟩ := runInv_step h
    obtain ⟨t, ht, ht'⟩ := ih hu'
    exact ⟨t, by rw [runSteps_succ, hu, andThen_next, ht], ht'⟩

theorem runInv_boot {c : Config} {turns : List Turn} {e : Environment} (hc : c.Valid)
    (hturns : ∀ x ∈ turns, turnWf c x = true) (he : envWf c e = true) :
    RunInv c { State.boot c with inputs := turns, env := e } :=
  ⟨inv_setSchedule (inv_boot hc) turns e, rfl, hturns, he⟩

/-! ### The cursor laws -/

/-- R35's two forms of `CI` agree. -/
theorem ci_eq_bi_sub_resyncs {s : State} (h : CursorInv s) : s.ci = s.bi - (s.bi + 3) / 4 := by
  have := h.ciOfBi
  omega

/-- R37: `FULL` exactly when the whole frame is parsed. -/
theorem isFull_iff_bi {s : State} (h : CursorInv s) : isFull s = true ↔ s.bi = s.cfg.frameBytes := by
  obtain ⟨-, hbi, hci, -⟩ := h
  rw [isFull_eq_true]
  unfold Config.frameBytes at hbi ⊢
  unfold Config.channels
  omega

/-- R34: what a payload byte does to the cursor, closed gate and open. -/
theorem consume_payload_cursor {b : Byte} {s t : State} (hb : b.getLsbD 7 = false)
    (h : consume b s = .next t) :
    (s.cfg.channels ≤ s.ci → t.ci = s.ci ∧ t.bi = s.bi) ∧
      (s.ci < s.cfg.channels → t.bi = s.bi + 1 ∧ s.ci ≤ t.ci ∧ t.ci ≤ s.ci + 1) := by
  obtain ⟨hclosed, hopen⟩ := cursorMovesOnlyInTheGate s t b hb h
  refine ⟨fun hg => ⟨(hclosed hg).1, (hclosed hg).2.1⟩, fun hg => ?_⟩
  obtain ⟨hbi, -, ⟨-, -, hci, -⟩ | ⟨-, -, hci⟩ | ⟨-, -, hci⟩ | ⟨-, -, hci⟩⟩ := hopen hg <;>
    exact ⟨hbi, by omega, by omega⟩

/-- Settles O53: every run keeps `RunInv`, and its cursor laws are those of `CursorInv`. -/
theorem reachableStatesSatisfyTheCursorLaws : Obligations.ReachableStatesSatisfyTheCursorLaws := by
  intro c turns e k hc hturns he
  obtain ⟨t, ht, hinv, hchips, -, -⟩ := runInv_runSteps (runInv_boot hc hturns he) k
  have hcur := hinv.cursor
  have hN : t.cfg.channels = c.channels := congrArg (3 * ·) hchips
  have hF : t.cfg.frameBytes = c.frameBytes := congrArg (4 * ·) hchips
  refine ⟨rfl, rfl, t, ht, hchips, hN ▸ hcur.ciBound, hF ▸ hcur.biBound, ci_eq_bi_sub_resyncs hcur,
    hcur.ciOfBi, hcur.prevWritten, hF ▸ isFull_iff_bi hcur, fun b hb => ?_, fun b u hb hu => ?_⟩
  · have hm : isMarker b = true := hb
    simp [hm]
  · obtain ⟨hclosed, hopen⟩ := consume_payload_cursor hb hu
    rw [hN] at hclosed hopen
    exact ⟨fun hfull => hclosed hfull.ge, hopen⟩

end Sys2Proof.Machine

/-! PROOF. The Channel Buffer: which cells exist, that its canonical form is one per contents, which
cells a payload stream writes, and what SHOW presents twice (20_memory). -/

namespace Sys2Proof.Machine

/-! ### Payload bytes (20_memory R53, R60) -/

/-- A payload byte moves `CI` forward or not at all, and writes at most the cell it passes. -/
theorem consume_payload_cells {b : Byte} {s t : State} (hb : isMarker b = false)
    (h : consume b s = .next t) :
    s.ci ≤ t.ci ∧ ∀ j, (j < s.ci ∨ t.ci ≤ j) → memRead t.cfg t.buf j = memRead s.cfg s.buf j := by
  obtain ⟨-, ⟨hm, -⟩ | ⟨-, -, rfl⟩ | ⟨-, -, -, rfl⟩ | ⟨-, -, -, p, m, -, hm, rfl⟩⟩ := consume_cases h
  · exact absurd (hb.symm.trans hm) Bool.false_ne_true
  · exact ⟨le_rfl, fun _ _ => rfl⟩
  · exact ⟨le_rfl, fun _ _ => rfl⟩
  · refine ⟨Nat.le_succ _, fun j hj => memRead_memWrite_other ?_ hm⟩
    simp only at hj
    omega

/-- A cell outside the range a payload stream passes is outside the range of each of its bytes. -/
theorem consumeAll_payload_cells {ps : List Byte} {s t : State} (hps : ∀ b ∈ ps, isMarker b = false)
    (h : consumeAll ps s = .next t) :
    s.ci ≤ t.ci ∧ ∀ j, (j < s.ci ∨ t.ci ≤ j) → memRead t.cfg t.buf j = memRead s.cfg s.buf j := by
  induction ps generalizing s with
  | nil =>
    injection h with h
    subst h
    exact ⟨le_rfl, fun _ _ => rfl⟩
  | cons b ps ih =>
    obtain ⟨u, hu, ht⟩ := andThen_eq_next h
    obtain ⟨hsu, hfirst⟩ := consume_payload_cells (hps b (by simp)) hu
    obtain ⟨hut, hrest⟩ := ih (fun x hx => hps x (by simp [hx])) ht
    refine ⟨hsu.trans hut, fun j hj => ?_⟩
    rw [hrest j (by omega), hfirst j (by omega)]

/-- Settles O17. -/
theorem payloadWritesOnlyTheCellsItPasses : Obligations.PayloadWritesOnlyTheCellsItPasses := by
  intro s t ps hps h
  obtain ⟨hci, hcells⟩ := consumeAll_payload_cells hps h
  exact ⟨hci, (consumeAll_frame h).1, hcells⟩

/-! ### The cells that exist (20_memory R50) -/

theorem memRead_eq_none_iff {c : Config} (hc : c.Valid) {m : Memory} {i : Nat} :
    memRead c m i = none ↔ c.channels ≤ i := by
  refine ⟨fun h => ?_, memRead_of_ge⟩
  by_contra hi
  obtain ⟨v, hv⟩ := memRead_isSome hc m (Nat.lt_of_not_le hi)
  simp [h] at hv

theorem memWrite_eq_none_iff {c : Config} {m : Memory} {i : Nat} {v : Byte} :
    memWrite c m i v = none ↔ c.channels ≤ i := by
  simp [memWrite]

/-! ### Where a fault comes from (60_exceptions R208) -/

/-- A sequence faults in its first part, or in its second after the first completed. -/
theorem andThen_eq_fault {o : Result} {k : State → Result} {f : Fault}
    (h : andThen o k = .fault f) : o = .fault f ∨ ∃ s, o = .next s ∧ k s = .fault f := by
  cases o with
  | next s => exact .inr ⟨s, rfl, h⟩
  | fault g => exact .inl h
  | refused r => cases h

theorem mapNext_eq_fault {o : Result} {g : State → State} {f : Fault}
    (h : mapNext o g = .fault f) : o = .fault f := by
  obtain h | ⟨s, -, h⟩ := andThen_eq_fault h
  · exact h
  · cases h

theorem requireConfig_eq_fault {c : Config} {o : Result} {f : Fault}
    (h : requireConfig c o = .fault f) : c.Valid ∧ o = .fault f := by
  unfold requireConfig at h
  split at h
  · cases h
  · exact ⟨configRefusal_eq_none ‹_›, h⟩

theorem requireRow_eq_fault {row : Bool} {o : Result} {f : Fault}
    (h : requireRow row o = .fault f) : row = true ∧ o = .fault f := by
  cases row
  · cases h
  · exact ⟨rfl, h⟩

/-- With the gate open, completing a channel faults only on an unwritten `PREV`: the cell at `CI`
exists. -/
theorem completeChannel_eq_fault {g : Byte → Byte} {s : State} {f : Fault}
    (hg : s.ci < s.cfg.channels) (h : completeChannel g s = .fault f) :
    f = .prevUnwritten ∧ s.prev = none := by
  cases hp : s.prev with
  | none =>
    rw [completeChannel_fault hp] at h
    injection h with h
    exact ⟨h.symm, rfl⟩
  | some p =>
    obtain ⟨m, -, hm⟩ := completeChannel_next g hp hg
    rw [hm] at h
    cases h

/-- `CONSUME` faults only where it completes a channel with `PREV` unwritten. -/
theorem consume_eq_fault {b : Byte} {s : State} {f : Fault} (h : consume b s = .fault f) :
    f = .prevUnwritten ∧ s.prev = none ∧
      isMarker b = false ∧ s.ci < s.cfg.channels ∧ phase s ≠ .p0 := by
  have hc : s.cfg.Valid := (requireConfig_eq_fault h).1
  cases hb : isMarker b with
  | true => rw [consume_marker hc hb] at h; cases h
  | false =>
    by_cases hg : s.ci < s.cfg.channels
    · by_cases hp : phase s = .p0
      · rw [consume_phase0 hc hb hg hp] at h; cases h
      · rw [consume_complete hc hb hg hp] at h
        obtain ⟨hf, hprev⟩ := completeChannel_eq_fault hg (mapNext_eq_fault h)
        exact ⟨hf, hprev, rfl, hg, hp⟩
    · rw [consume_closed hc hb (Nat.le_of_not_lt hg)] at h; cases h

/-- No `CONSUME` makes `PREV` unwritten. -/
theorem consume_prev_none {b : Byte} {s t : State} (h : consume b s = .next t)
    (ht : t.prev = none) : s.prev = none := by
  obtain ⟨-, ⟨-, rfl⟩ | ⟨-, -, rfl⟩ | ⟨-, -, -, rfl⟩ | ⟨-, -, -, p, m, -, -, rfl⟩⟩ := consume_cases h
  · cases ht
  · exact ht
  · cases ht
  · cases ht

/-- The consumption phase faults only if it began with `PREV` unwritten. -/
theorem consumePhase_eq_fault {q : List Byte} {s : State} {f : Fault}
    (h : consumePhase q s = .fault f) : f = .prevUnwritten ∧ s.prev = none := by
  induction q generalizing s with
  | nil => cases h
  | cons b rest ih =>
    obtain h | ⟨u, hu, h⟩ := andThen_eq_fault h
    · obtain ⟨hf, hprev, -⟩ := consume_eq_fault h
      exact ⟨hf, hprev⟩
    · split at h
      · cases h
      · obtain ⟨hf, hprev⟩ := ih h
        have hfirst : (setRxq rest s).prev = none := consume_prev_none hu hprev
        exact ⟨hf, hfirst⟩

/-- Presenting the buffer under a valid configuration does not fault. -/
theorem presentBuffer_ne_fault {s : State} {f : Fault} (hc : s.cfg.Valid) :
    presentBuffer s ≠ .fault f := by
  obtain ⟨ws, hws⟩ := snapshot_isSome hc
  simp [presentBuffer_next hws]

/-- The one fault of any operation, in any state, is a read of an unwritten `PREV`. -/
theorem exec_eq_fault {i : Instr} {s : State} {f : Fault} (h : exec i s = .fault f) :
    f = .prevUnwritten ∧ s.prev = none := by
  cases hi : receivedByte? i with
  | some b =>
    rw [exec_eq_consume hi] at h
    obtain ⟨hf, hprev, -⟩ := consume_eq_fault (requireRow_eq_fault (requireConfig_eq_fault h).2).2
    exact ⟨hf, hprev⟩
  | none =>
    cases i with
    | encodeFrame v =>
      rw [exec_encodeFrame] at h
      obtain ⟨-, h⟩ := requireConfig_eq_fault h
      split at h <;> cases h
    | iteration =>
      rw [exec_iteration] at h
      obtain ⟨hc, h⟩ := requireConfig_eq_fault h
      obtain h | ⟨u, hu, h⟩ := andThen_eq_fault h
      · obtain ⟨hf, hprev⟩ := consumePhase_eq_fault h
        exact ⟨hf, by simpa using hprev⟩
      · obtain ⟨taken, left, -, -, hall, -⟩ := consumePhase_cases (setLoop_rxq _ _) hu
        have hcfg : u.cfg = s.cfg := (consumeAll_frame hall).1
        exact absurd h (presentBuffer_ne_fault (by simpa [hcfg] using hc))
    | showBuffer =>
      rw [exec_showBuffer] at h
      obtain ⟨hc, h⟩ := requireConfig_eq_fault h
      exact absurd h (presentBuffer_ne_fault hc)
    | envRx b =>
      rw [exec_envRx] at h
      cases (requireConfig_eq_fault h).2
    | reset init =>
      rw [exec_reset] at h
      cases (requireConfig_eq_fault h).2
    | _ => cases hi

/-- Settles O29: the accesses by their own laws, the operations by `exec_eq_fault`. -/
theorem onlyTheNCellsExist : Obligations.OnlyTheNCellsExist :=
  ⟨fun _ _ _ _ hc => ⟨memRead_eq_none_iff hc, memWrite_eq_none_iff⟩,
    fun _ _ h => Fault.noConfusion (exec_eq_fault h).1⟩

/-! ### One canonical form per contents (00_scope R7; log 4) -/

/-- In a rising list a cell is listed exactly when looking it up finds its value. -/
theorem mem_iff_cellLookup {m : Memory} (hm : Rising m) (i : Nat) (v : Byte) :
    (i, v) ∈ m ↔ cellLookup m i = some v := by
  induction m with
  | nil => simp [cellLookup]
  | cons x m ih =>
    obtain ⟨a, w⟩ := x
    obtain ⟨hx, hrest⟩ := List.pairwise_cons.mp hm
    rw [List.mem_cons, ih hrest, cellLookup, Prod.mk.injEq]
    by_cases hi : a = i
    · have hnot : cellLookup m i ≠ some v := fun h => by
        have := hx _ ((ih hrest).mpr h)
        simp only at this
        omega
      simp [hi, hnot, eq_comm]
    · simp [hi, Ne.symm hi]

/-- A canonical buffer lists exactly the cells that read as something else than `BUFFER_INIT`. -/
theorem mem_iff_memRead {c : Config} {m : Memory} (hm : Memory.wf c m = true) (i : Nat) (v : Byte) :
    (i, v) ∈ m ↔ i < c.channels ∧ memRead c m i = some v ∧ unlistedCell c i ≠ some v := by
  obtain ⟨hr, hcells⟩ := wf_iff.mp hm
  constructor
  · intro h
    obtain ⟨hi, hne⟩ := hcells _ h
    exact ⟨hi, by simp [memRead, hi, (mem_iff_cellLookup hr i v).mp h], hne⟩
  · rintro ⟨hi, hread, hne⟩
    rw [memRead, if_pos hi] at hread
    rw [mem_iff_cellLookup hr]
    split at hread
    · rename_i hlook
      rw [hlook, hread]
    · exact absurd hread hne

/-- Rising lists with the same cells are equal. -/
theorem Rising.eq_of_mem_iff {m m' : Memory} (hm : Rising m) (hm' : Rising m')
    (h : ∀ x, x ∈ m ↔ x ∈ m') : m = m' :=
  have : Std.Irrefl fun x y : Host.Cell => x.1 < y.1 := ⟨fun _ => lt_irrefl _⟩
  have : Std.Antisymm fun x y : Host.Cell => x.1 < y.1 := ⟨fun _ _ h h' => absurd h h'.asymm⟩
  List.Pairwise.eq_of_mem_iff hm hm' h

/-- Settles O49: both buffers list the cells that read as something else than `BUFFER_INIT`. -/
theorem equalReadsAreEqualBuffers : Obligations.EqualReadsAreEqualBuffers := by
  intro c m m' _ hm hm' hread
  refine Rising.eq_of_mem_iff (wf_iff.mp hm).1 (wf_iff.mp hm').1 fun ⟨i, v⟩ => ?_
  rw [mem_iff_memRead hm, mem_iff_memRead hm']
  exact and_congr_right fun hi => by rw [hread i hi]

/-! ### SHOW twice (20_memory R59) -/

/-- Settles O31: the second SHOW reads the buffer and the configuration the first one left. -/
theorem showTwicePresentsEqualSnapshots : Obligations.ShowTwicePresentsEqualSnapshots := by
  intro s hc
  obtain ⟨ws, hws⟩ := snapshot_isSome hc
  refine ⟨emitShow ws s, ws, execShowBuffer_next hc hws, rfl, rfl, rfl, rfl, rfl,
    fun p q out turns e => ⟨_, execShowBuffer_next hc ((snapshot_congr rfl rfl).trans hws), ?_⟩⟩
  simp

end Sys2Proof.Machine

/-! PROOF. Wire bytes and operations (30_encoding R70 to R83): a well-formed operation's wire byte is
the byte it carries, and the row that admits an operation is the one the decoder selects. -/

namespace Sys2Proof.Machine

/-! ### Decoding and encoding -/

/-- The fixed bit of a `1xxxxxxx` row changes no byte that has it. -/
theorem markerRow_of_marker : ∀ {b : Byte}, isMarker b = true → markerRow b = b := by decide

/-- The fixed bit of a `0xxxxxxx` row changes no byte that has it. -/
theorem payloadRow_of_payload : ∀ {b : Byte}, isMarker b = false → payloadRow b = b := by decide

/-- A well-formed operation is encoded by the byte it carries. -/
theorem encode_eq_receivedByte? {c : Config} {i : Instr} (hwf : i.wf c = true) :
    encode i = receivedByte? i := by
  have hpayload {b : Byte} (hb : (!isMarker b) = true) : some (payloadRow b) = some b :=
    congrArg some (payloadRow_of_payload (Bool.not_eq_true' _ ▸ hb))
  cases i with
  | consumeResync b => exact congrArg some (markerRow_of_marker hwf)
  | consumeP0 b => exact hpayload hwf
  | consumeP1 b => exact hpayload hwf
  | consumeP2 b => exact hpayload hwf
  | consumeP3 b => exact hpayload hwf
  | consumeDrop b => exact hpayload hwf
  | encodeFrame v => rfl
  | iteration => rfl
  | showBuffer => rfl
  | envRx b => rfl
  | reset init => rfl

/-- Where an operation's pattern and state condition hold, the operation map selects it. This is the
converse of `row_decodeByte`. -/
theorem decodeByte_of_row {c : Config} {sel : Selector} {i : Instr} {b : Byte}
    (hi : receivedByte? i = some b) (hwf : i.wf c = true) (hrow : rowCondition sel i = true) :
    decodeByte sel b = i := by
  cases i <;> cases hi <;>
    simp only [Instr.wf, rowCondition, Bool.not_eq_true', Bool.and_eq_true, beq_iff_eq] at hwf hrow
  case consumeResync => simp [decodeByte, hwf]
  case consumeDrop => simp [decodeByte, decodePayload, hwf, hrow]
  all_goals
    obtain ⟨hgate, hphase⟩ := hrow
    simp [decodeByte, decodePayload, hwf, hgate, hphase]

/-- Settles O1: the operation a byte selects is the one whose row admits the byte, and its wire byte
is the byte it carries. -/
theorem decodeAndEncodeAgree : Obligations.DecodeAndEncodeAgree := by
  refine ⟨fun c i b sel rest hwf henc hrow => ?_, fun c sel b rest => ?_⟩
  · have hi : receivedByte? i = some b := (encode_eq_receivedByte? hwf).symm.trans henc
    rw [decode, decodeByte_of_row hi hwf hrow]
  · obtain ⟨hwf, hrow⟩ := Bool.and_eq_true_iff.mp (row_decodeByte c sel b)
    exact ⟨decodeByte sel b, rfl, hwf, hrow,
      (encode_eq_receivedByte? hwf).trans (receivedByte?_decodeByte sel b)⟩

/-- Settles O2, by running the decoder on the ten inputs. -/
theorem writtenOutBytesDecode : Obligations.WrittenOutBytesDecode := by
  unfold Obligations.WrittenOutBytesDecode
  decide

/-! ### The operation map on states (30_encoding R81) -/

/-- The state condition of a payload row, as the cursor's state has it. -/
theorem selector_row {s : State} {p : Phase} (hg : s.ci < s.cfg.channels) (hp : phase s = p) :
    ((selector s).gateOpen && (selector s).phase == p) = true := by
  simp [selector, hg, hp]

/-- Settles O3: each condition is the row's of the operation it selects (`decodeByte_of_row`). -/
theorem operationMapCoversEveryByteOnce : Obligations.OperationMapCoversEveryByteOnce := by
  intro s b hc hci
  refine ⟨by omega, fun hb => ?_, fun hb => ?_⟩
  · have hm : isMarker b = true := hb
    refine ⟨decodeByte_of_row (c := s.cfg) rfl hm rfl, ?_⟩
    simp [hm, channels_pos hc, phase, phaseOf]
  · have hwf : (!isMarker b) = true := (Bool.not_eq_true' _).mpr hb
    refine ⟨fun hg hp => ?_, fun hg hp => ?_, fun hg hp => ?_, fun hg hp => ?_, fun hfull => ?_⟩
    · exact decodeByte_of_row (c := s.cfg) rfl hwf (selector_row hg (phaseOf_eq_p0.mpr hp))
    · exact decodeByte_of_row (c := s.cfg) rfl hwf (selector_row hg (phaseOf_eq_p1.mpr hp))
    · exact decodeByte_of_row (c := s.cfg) rfl hwf (selector_row hg (phaseOf_eq_p2.mpr hp))
    · exact decodeByte_of_row (c := s.cfg) rfl hwf (selector_row hg (phaseOf_eq_p3.mpr hp))
    · have hclosed : (!gateOpen s) = true := by simp [gateOpen, hfull]
      exact decodeByte_of_row (c := s.cfg) rfl hwf hclosed

end Sys2Proof.Machine

/-! PROOF. The bit fields of received channels and of sent groups (30_encoding R74, R77). -/

namespace Sys2Proof.Machine

/-! ### Channels by their fields (30_encoding R77) -/

theorem assembleR_eq_append (p b : Byte) :
    assembleR p b = (p.extractLsb' 0 6 ++ b.extractLsb' 4 2 : BitVec 8) := by
  refine BitVec.eq_of_getLsbD_eq fun i hi => ?_
  rw [assembleR_bit _ _ hi, BitVec.getLsbD_append]
  split
  · simp [*]
  · simp [show i - 2 < 6 by omega]

theorem assembleG_eq_append (p b : Byte) :
    assembleG p b = (p.extractLsb' 0 4 ++ b.extractLsb' 2 4 : BitVec 8) := by
  refine BitVec.eq_of_getLsbD_eq fun i hi => ?_
  rw [assembleG_bit _ _ hi, BitVec.getLsbD_append]
  split
  · simp [*]
  · simp [show i - 4 < 4 by omega]

theorem assembleB_eq_append (p b : Byte) :
    assembleB p b = (p.extractLsb' 0 2 ++ b.extractLsb' 0 6 : BitVec 8) := by
  refine BitVec.eq_of_getLsbD_eq fun i hi => ?_
  rw [assembleB_bit _ _ hi, BitVec.getLsbD_append]
  split
  · simp [*]
  · simp [show i - 6 < 2 by omega]

/-- Settles O13. -/
theorem channelIsCarryThenField : Obligations.ChannelIsCarryThenField :=
  fun p b => ⟨assembleR_eq_append p b, assembleG_eq_append p b, assembleB_eq_append p b⟩

/-! ### The group word by its channels (30_encoding R74) -/

/-- The bits of the word `{R, G, B}`. -/
theorem groupWord_bit (r g b : Byte) (n : Nat) :
    (r ++ g ++ b : BitVec 24).getLsbD n =
      if n < 8 then b.getLsbD n else if n < 16 then g.getLsbD (n - 8) else r.getLsbD (n - 16) := by
  rw [BitVec.getLsbD_append, BitVec.getLsbD_append]
  simp only [show n - 8 < 8 ↔ n < 16 by omega, show n - 8 - 8 = n - 16 by omega]

/-- A data field is a cut of the group word when its six bits are. -/
theorem field_eq_groupWord_cut {x r g b : Byte} {k : Nat}
    (h : ∀ i, i < 6 → x.getLsbD i = (r ++ g ++ b : BitVec 24).getLsbD (k + i)) :
    x.extractLsb' 0 6 = (r ++ g ++ b : BitVec 24).extractLsb' k 6 := by
  refine BitVec.eq_of_getLsbD_eq fun i hi => ?_
  rw [BitVec.getLsbD_extractLsb', BitVec.getLsbD_extractLsb', Nat.zero_add, h i hi]

/-- Settles O24, byte by byte: G1 and G2 straddle two channels, so their six bits fall in two parts. -/
theorem groupBytesCutTheGroupWord : Obligations.GroupBytesCutTheGroupWord := by
  intro first r g b
  refine ⟨field_eq_groupWord_cut fun i hi => ?_, field_eq_groupWord_cut fun i hi => ?_,
    field_eq_groupWord_cut fun i hi => ?_, field_eq_groupWord_cut fun i hi => ?_⟩
  · rw [groupByte0_bit _ _ (by omega), groupWord_bit, if_neg (by omega), if_neg (by omega)]
    simp [show i ≠ 7 by omega, show 18 + i - 16 = 2 + i by omega]
  · rw [groupByte1_bit _ _ (by omega), groupWord_bit, if_neg (by omega)]
    by_cases h : i < 4
    · simp [show ¬ 4 ≤ i by omega, show 12 + i < 16 by omega, show 12 + i - 8 = 4 + i by omega]
    · have hg : g.getLsbD (4 + i) = false := BitVec.getLsbD_of_ge _ _ (by omega)
      simp [hg, hi, show 4 ≤ i by omega, show ¬ 12 + i < 16 by omega,
        show 12 + i - 16 = i - 4 by omega]
  · rw [groupByte2_bit _ _ (by omega), groupWord_bit]
    by_cases h : i < 2
    · simp [show ¬ 2 ≤ i by omega, show 6 + i < 8 by omega]
    · have hb : b.getLsbD (6 + i) = false := BitVec.getLsbD_of_ge _ _ (by omega)
      simp [hb, hi, show 2 ≤ i by omega, show ¬ 6 + i < 8 by omega, show 6 + i < 16 by omega,
        show 6 + i - 8 = i - 2 by omega]
  · rw [groupByte3_bit _ (by omega), groupWord_bit, if_pos (by omega)]
    simp [hi]

end Sys2Proof.Machine

/-! PROOF. Bit 6 of a received byte reaches nothing but `PREV` (30_encoding R78): no field the decoder
reads holds it, so a stream and its bit-6 variant are consumed side by side. -/

namespace Sys2Proof.Machine

/-- Two bytes agree in every bit but bit 6. -/
abbrev AgreeOffBitSix (x y : Byte) : Prop := x &&& 0xBF = y &&& 0xBF

/-- Two values of `PREV` agree in every bit but bit 6. -/
abbrev PrevAgrees (p q : Option Byte) : Prop :=
  p.map (· &&& (0xBF : Byte)) = q.map (· &&& (0xBF : Byte))

theorem AgreeOffBitSix.bit_eq {x y : Byte} (h : AgreeOffBitSix x y) {i : Nat} (hi : i ≠ 6) :
    x.getLsbD i = y.getLsbD i := by
  by_cases h8 : i < 8
  · have hmask : ∀ j : Fin 8, j.val ≠ 6 → (0xBF : Byte).getLsbD j.val = true := by decide
    have hbit : (x &&& 0xBF).getLsbD i = (y &&& 0xBF).getLsbD i := by rw [h]
    rwa [BitVec.getLsbD_and, BitVec.getLsbD_and, hmask ⟨i, h8⟩ hi, Bool.and_true, Bool.and_true]
      at hbit
  · rw [BitVec.getLsbD_of_ge _ _ (by omega), BitVec.getLsbD_of_ge _ _ (by omega)]

theorem AgreeOffBitSix.isMarker_eq {x y : Byte} (h : AgreeOffBitSix x y) : isMarker x = isMarker y :=
  h.bit_eq (by decide)

theorem AgreeOffBitSix.field_eq {x y : Byte} (h : AgreeOffBitSix x y) {start len : Nat}
    (hl : start + len ≤ 6) : x.extractLsb' start len = y.extractLsb' start len := by
  refine BitVec.eq_of_getLsbD_eq fun i hi => ?_
  rw [BitVec.getLsbD_extractLsb', BitVec.getLsbD_extractLsb', h.bit_eq (by omega)]

/-- Every field a channel is assembled from lies below bit 6. -/
theorem completedValue_congr (ph : Phase) {p q b b' : Byte} (hp : AgreeOffBitSix p q)
    (hb : AgreeOffBitSix b b') : completedValue ph p b = completedValue ph q b' := by
  cases ph with
  | p0 => rfl
  | p1 => simp only [completedValue, assembleR_eq_append]; rw [hp.field_eq, hb.field_eq] <;> decide
  | p2 => simp only [completedValue, assembleG_eq_append]; rw [hp.field_eq, hb.field_eq] <;> decide
  | p3 => simp only [completedValue, assembleB_eq_append]; rw [hp.field_eq, hb.field_eq] <;> decide

/-- A written `PREV` agrees with a written one only. -/
theorem PrevAgrees.exists_some {q : Option Byte} {p : Byte} (h : PrevAgrees q (some p)) :
    ∃ p', q = some p' ∧ AgreeOffBitSix p p' := by
  obtain ⟨p', hq, hp⟩ := Option.map_eq_some_iff.mp h
  exact ⟨p', hq, hp.symm⟩

/-- The result of completing a channel, from the value of `PREV` and the write. -/
theorem completeChannel_of_memWrite {s : State} {f : Byte → Byte} {p : Byte} {m : Memory}
    (hp : s.prev = some p) (hm : memWrite s.cfg s.buf s.ci (f p) = some m) :
    completeChannel f s = .next { s with buf := m, ci := s.ci + 1 } := by
  simp [completeChannel, hp, hm]

/-- `CONSUME` keeps two states that agree but for bit 6 of `PREV` so, when its bytes do. -/
theorem consume_agrees {s t : State} {b b' : Byte} {q : Option Byte} (hb : AgreeOffBitSix b b')
    (hq : PrevAgrees q s.prev) (h : consume b s = .next t) :
    ∃ q', consume b' { s with prev := q } = .next { t with prev := q' } ∧ PrevAgrees q' t.prev := by
  have hnew : PrevAgrees (some b') (some b) := congrArg some hb.symm
  obtain ⟨hc, ⟨hm, rfl⟩ | ⟨hm, hg, rfl⟩ | ⟨hm, hg, hp, rfl⟩ | ⟨hm, hg, hp, p, m, hprev, hw, rfl⟩⟩ :=
    consume_cases h <;> rw [hb.isMarker_eq] at hm
  · exact ⟨some b', consume_marker (s := { s with prev := q }) hc hm, hnew⟩
  · exact ⟨q, consume_closed (s := { s with prev := q }) hc hm hg, hq⟩
  · exact ⟨some b', consume_phase0 (s := { s with prev := q }) hc hm hg hp, hnew⟩
  · obtain ⟨p', rfl, hpp⟩ := PrevAgrees.exists_some (hprev ▸ hq)
    rw [completedValue_congr (phase s) hpp hb] at hw
    refine ⟨some b', ?_, hnew⟩
    rw [consume_complete (s := { s with prev := some p' }) hc hm hg hp,
      completeChannel_of_memWrite (s := { s with prev := some p' }) rfl hw, mapNext_next]

theorem consumeAll_agrees {s t : State} {bs bs' : List Byte} {q : Option Byte}
    (hbs : List.Forall₂ AgreeOffBitSix bs bs') (hq : PrevAgrees q s.prev)
    (h : consumeAll bs s = .next t) :
    ∃ q', consumeAll bs' { s with prev := q } = .next { t with prev := q' } ∧
      PrevAgrees q' t.prev := by
  induction hbs generalizing s q with
  | nil =>
    injection h with h
    subst h
    exact ⟨q, rfl, hq⟩
  | cons hb _ ih =>
    obtain ⟨u, hu, ht⟩ := andThen_eq_next h
    obtain ⟨r, hr, hru⟩ := consume_agrees hb hq hu
    obtain ⟨q', hq', hqt⟩ := ih hru ht
    exact ⟨q', by rw [consumeAll, hr, andThen_next, hq'], hqt⟩

/-- Settles O14: both streams start from the same `PREV`. -/
theorem bitSixReachesOnlyPrev : Obligations.BitSixReachesOnlyPrev :=
  fun s _ _ _ hbs h => consumeAll_agrees (q := s.prev) hbs rfl h

end Sys2Proof.Machine

/-! PROOF. The bytes of an encoded frame (40_encoder R100 to R104): each group byte as the encoder's
pseudocode writes it, and where a frame has bits 6 and 7 set. -/

namespace Sys2Proof.Machine

/-! ### Group bytes as the pseudocode writes them (40_encoder R100) -/

/-- A byte shifted right is still a byte, so truncating it changes nothing. -/
theorem toNat_shiftRight_mod (x : Byte) (n : Nat) : (x.toNat >>> n) % 256 = x.toNat >>> n :=
  Nat.mod_eq_of_lt (by simpa using (x >>> n).isLt)

theorem groupByte0_eq (first : Bool) (r : Byte) :
    groupByte0 first r = (if first then 0x80 else 0x00) ||| (r >>> 2) := by
  apply BitVec.eq_of_toNat_eq
  cases first <;> simp [groupByte0, trunc8, toNat_shiftRight_mod]

theorem groupByte1_eq (r g : Byte) : groupByte1 r g = ((r &&& 0x03) <<< 4) ||| (g >>> 4) := by
  apply BitVec.eq_of_toNat_eq
  simp [groupByte1, trunc8, toNat_shiftRight_mod]

theorem groupByte2_eq (g b : Byte) : groupByte2 g b = ((g &&& 0x0F) <<< 2) ||| (b >>> 6) := by
  apply BitVec.eq_of_toNat_eq
  simp [groupByte2, trunc8, toNat_shiftRight_mod]

theorem groupByte3_eq (b : Byte) : groupByte3 b = b &&& 0x3F := by
  apply BitVec.eq_of_toNat_eq
  simp [groupByte3, trunc8]

/-! ### The bytes of each chip (40_encoder R100, R103, R104) -/

theorem execEncodeFrame_wrong_length {v : List Byte} {s : State} (hc : s.cfg.Valid)
    (hv : v.length ≠ s.cfg.channels) : execEncodeFrame v s = .refused .frameLength := by
  simp [execEncodeFrame, requireConfig_of_valid hc, hv]

/-- Settles O22: a chip with an R channel is one of the `C` chips, whose bytes `encodeGroups_chip` gives. -/
theorem frameBytesOfEachChip : Obligations.FrameBytesOfEachChip := by
  refine ⟨fun c v hv => ⟨encodeGroups_length true hv, fun j r g b hr hg hb => ?_⟩,
    fun s v hc hv => execEncodeFrame_wrong_length hc hv⟩
  have hj : j < c := by
    obtain ⟨hlt, -⟩ := List.getElem?_eq_some_iff.mp hr
    omega
  obtain ⟨r', g', b', hr', hg', hb', h0, h1, h2, h3⟩ := encodeGroups_chip true hv hj
  obtain rfl := Option.some.inj (hr.symm.trans hr')
  obtain rfl := Option.some.inj (hg.symm.trans hg')
  obtain rfl := Option.some.inj (hb.symm.trans hb')
  rw [groupByte0_eq, Bool.true_and] at h0
  simp only [decide_eq_true_eq] at h0
  exact ⟨h0, groupByte1_eq r g ▸ h1, groupByte2_eq g b ▸ h2, groupByte3_eq b ▸ h3⟩

/-! ### Bits 6 and 7 (40_encoder R101, R102) -/

/-- The bits 6 and 7 of a wire byte. -/
abbrev TopBits (e : Byte) (bit6 bit7 : Bool) : Prop := e.getLsbD 6 = bit6 ∧ e.getLsbD 7 = bit7

theorem groupByte0_topBits (first : Bool) (r : Byte) : TopBits (groupByte0 first r) false first := by
  constructor <;> rw [groupByte0_bit _ _ (by decide)] <;> simp

theorem groupByte1_topBits (r g : Byte) : TopBits (groupByte1 r g) false false := by
  constructor <;> rw [groupByte1_bit _ _ (by decide)] <;> simp

theorem groupByte2_topBits (g b : Byte) : TopBits (groupByte2 g b) false false := by
  constructor <;> rw [groupByte2_bit _ _ (by decide)] <;> simp

theorem groupByte3_topBits (b : Byte) : TopBits (groupByte3 b) false false := by
  constructor <;> rw [groupByte3_bit _ (by decide)] <;> simp

/-- Of a run of groups, byte 0 alone can have bit 7 set, and no byte has bit 6 set. -/
theorem encodeGroups_topBits {first : Bool} {v : List Byte} {k : Nat} {e : Byte}
    (h : (encodeGroups first v)[k]? = some e) : TopBits e false (first && decide (k = 0)) := by
  induction first, v using encodeGroups.induct generalizing k with
  | case1 first r g b rest ih =>
    rw [encodeGroups_cons] at h
    rcases k with _ | _ | _ | _ | k
    · obtain rfl := Option.some.inj h
      simpa using groupByte0_topBits first r
    · obtain rfl := Option.some.inj h
      simpa using groupByte1_topBits r g
    · obtain rfl := Option.some.inj h
      simpa using groupByte2_topBits g b
    · obtain rfl := Option.some.inj h
      simpa using groupByte3_topBits b
    · simpa using ih h
  | case2 => simp [encodeGroups] at h

theorem groupByte0_field (first : Bool) (r : Byte) :
    (groupByte0 first r).extractLsb' 0 6 = r.extractLsb' 2 6 := by
  refine BitVec.eq_of_getLsbD_eq fun i hi => ?_
  rw [BitVec.getLsbD_extractLsb', BitVec.getLsbD_extractLsb', groupByte0_bit _ _ (by omega)]
  simp [show i ≠ 7 by omega]

/-- Settles O23. -/
theorem frameIsSevenBitClean : Obligations.FrameIsSevenBitClean := by
  refine fun c v hc hv => ⟨fun k e he => encodeGroups_topBits he, fun e r he hr => ?_⟩
  obtain ⟨r', -, -, hr', -, -, h0, -⟩ := encodeGroups_chip true hv hc
  obtain rfl := Option.some.inj (hr.symm.trans hr')
  obtain rfl := Option.some.inj (he.symm.trans h0)
  exact groupByte0_field _ r

end Sys2Proof.Machine

/-! PROOF. Decoding an encoded frame (40_encoder R107): each payload byte that completes a channel writes
the next cell, so a group writes its chip's three cells and, by induction over the chips, a frame writes
all its values. -/

namespace Sys2Proof.Machine

/-! ### Values written one after another -/

/-- The buffer `m'` is `m` with the values `vs` written to the cells from `i` on. -/
structure CellsWritten (c : Config) (m m' : Memory) (i : Nat) (vs : List Byte) : Prop where
  written : ∀ k, k < vs.length → memRead c m' (i + k) = vs[k]?
  others : ∀ j, (j < i ∨ i + vs.length ≤ j) → memRead c m' j = memRead c m j

theorem CellsWritten.of_memWrite {c : Config} {m m' : Memory} {i : Nat} {v : Byte}
    (h : memWrite c m i v = some m') : CellsWritten c m m' i [v] := by
  refine ⟨fun k hk => ?_, fun j hj => memRead_memWrite_other ?_ h⟩
  · obtain rfl : k = 0 := by simpa using hk
    exact memRead_memWrite_same h
  · simp only [List.length_singleton] at hj
    omega

/-- Writing two runs of values, the second where the first ends, writes their concatenation. -/
theorem CellsWritten.append {c : Config} {m m₁ m₂ : Memory} {i n : Nat} {xs ys : List Byte}
    (hx : CellsWritten c m m₁ i xs) (hn : n = i + xs.length) (hy : CellsWritten c m₁ m₂ n ys) :
    CellsWritten c m m₂ i (xs ++ ys) := by
  subst hn
  refine ⟨fun k hk => ?_, fun j hj => ?_⟩ <;> rw [List.length_append] at *
  · by_cases hkx : k < xs.length
    · rw [List.getElem?_append_left hkx, ← hx.written k hkx, hy.others _ (by omega)]
    · rw [List.getElem?_append_right (by omega), ← hy.written _ (by omega)]
      congr 1
      omega
  · rw [hy.others j (by omega), hx.others j (by omega)]

/-! ### One group -/

theorem isMarker_groupByte0 (first : Bool) (r : Byte) : isMarker (groupByte0 first r) = first :=
  (groupByte0_topBits first r).2

theorem isMarker_groupByte1 (r g : Byte) : isMarker (groupByte1 r g) = false :=
  (groupByte1_topBits r g).2

theorem isMarker_groupByte2 (g b : Byte) : isMarker (groupByte2 g b) = false :=
  (groupByte2_topBits g b).2

theorem isMarker_groupByte3 (b : Byte) : isMarker (groupByte3 b) = false :=
  (groupByte3_topBits b).2

/-- A state after a payload byte: the given buffer, `CI`, `BI` and `PREV`, with `COMMIT` 0. -/
def afterPayload (m : Memory) (ci bi : Nat) (p : Option Byte) (s : State) : State :=
  { s with buf := m, ci := ci, bi := bi, prev := p, commit := false }

section
variable (m : Memory) (ci bi : Nat) (p : Option Byte) (s : State)

@[simp] theorem afterPayload_cfg : (afterPayload m ci bi p s).cfg = s.cfg := rfl
@[simp] theorem afterPayload_buf : (afterPayload m ci bi p s).buf = m := rfl
@[simp] theorem afterPayload_ci : (afterPayload m ci bi p s).ci = ci := rfl
@[simp] theorem afterPayload_bi : (afterPayload m ci bi p s).bi = bi := rfl
@[simp] theorem afterPayload_prev : (afterPayload m ci bi p s).prev = p := rfl

@[simp] theorem phase_afterPayload : phase (afterPayload m ci bi p s) = phaseOf bi := rfl

@[simp] theorem afterPayload_afterPayload (m' : Memory) (ci' bi' : Nat) (p' : Option Byte) :
    afterPayload m' ci' bi' p' (afterPayload m ci bi p s) = afterPayload m' ci' bi' p' s := rfl

end

/-- A payload byte at phase 1, 2 or 3 with the gate open and `PREV` written completes the channel `CI`
(41_decoder R135 to R137). -/
theorem consume_completes_channel {s : State} {b p : Byte} (hc : s.cfg.Valid)
    (hb : isMarker b = false) (hg : s.ci < s.cfg.channels) (hp : phase s ≠ .p0)
    (hprev : s.prev = some p) :
    ∃ m, CellsWritten s.cfg s.buf m s.ci [completedValue (phase s) p b] ∧
      consume b s = .next (afterPayload m (s.ci + 1) (s.bi + 1) (some b) s) := by
  obtain ⟨m, hm, hnext⟩ := completeChannel_next (fun p => completedValue (phase s) p b) hprev hg
  refine ⟨m, .of_memWrite hm, ?_⟩
  rw [consume_complete hc hb hg hp, hnext, mapNext_next]
  rfl

/-- G1, G2 and G3, consumed after their G0, write their chip's channels to the next three cells. -/
theorem consumeAll_chip {s : State} {first : Bool} {r : Byte} (g b : Byte) (hc : s.cfg.Valid)
    (hbi : s.bi % 4 = 1) (hprev : s.prev = some (groupByte0 first r))
    (hfit : s.ci + 3 ≤ s.cfg.channels) :
    ∃ m, CellsWritten s.cfg s.buf m s.ci [r, g, b] ∧
      consumeAll [groupByte1 r g, groupByte2 g b, groupByte3 b] s =
        .next (afterPayload m (s.ci + 3) (s.bi + 3) (some (groupByte3 b)) s) := by
  have hp1 : phase s = .p1 := phaseOf_eq_p1.mpr hbi
  have hp2 : phaseOf (s.bi + 1) = .p2 := phaseOf_eq_p2.mpr (by omega)
  have hp3 : phaseOf (s.bi + 2) = .p3 := phaseOf_eq_p3.mpr (by omega)
  obtain ⟨m₁, hr, h1⟩ := consume_completes_channel hc (isMarker_groupByte1 r g) (by omega)
    (by simp [hp1]) hprev
  obtain ⟨m₂, hg, h2⟩ := consume_completes_channel
    (s := afterPayload m₁ (s.ci + 1) (s.bi + 1) (some (groupByte1 r g)) s) hc
    (isMarker_groupByte2 g b) (show s.ci + 1 < s.cfg.channels by omega) (by simp [hp2]) rfl
  obtain ⟨m₃, hb, h3⟩ := consume_completes_channel
    (s := afterPayload m₂ (s.ci + 2) (s.bi + 2) (some (groupByte2 g b)) s) hc
    (isMarker_groupByte3 b) (show s.ci + 2 < s.cfg.channels by omega) (by simp [hp3]) rfl
  simp only [hp1, completedValue, assembleR_groupBytes] at hr
  simp only [phase_afterPayload, hp2, completedValue, assembleG_groupBytes] at hg
  simp only [phase_afterPayload, hp3, completedValue, assembleB_groupBytes] at hb
  refine ⟨m₃, (hr.append rfl hg).append rfl hb, ?_⟩
  simp only [consumeAll, h1, h2, h3, andThen_next, afterPayload_afterPayload, afterPayload_ci,
    afterPayload_bi]

/-! ### The whole frame (40_encoder R107) -/

/-- The groups of a chip and of those after it, consumed after the first G0, write all their channels to
the next cells. -/
theorem consumeAll_chips {c : Nat} {s : State} {first : Bool} {r g b : Byte} {rest : List Byte}
    (hc : s.cfg.Valid) (hrest : rest.length = 3 * c) (hbi : s.bi % 4 = 1)
    (hprev : s.prev = some (groupByte0 first r)) (hfit : s.ci + 3 * (c + 1) ≤ s.cfg.channels) :
    ∃ m, CellsWritten s.cfg s.buf m s.ci (r :: g :: b :: rest) ∧
      consumeAll ([groupByte1 r g, groupByte2 g b, groupByte3 b] ++ encodeGroups false rest) s =
        .next (afterPayload m (s.ci + 3 * (c + 1)) (s.bi + 3 + 4 * c)
          ((r :: g :: b :: rest).getLast?.map (· &&& (0x3F : Byte))) s) := by
  induction c generalizing s first r g b rest with
  | zero =>
    obtain rfl := List.length_eq_zero_iff.mp hrest
    obtain ⟨m, hm, h⟩ := consumeAll_chip g b hc hbi hprev hfit
    exact ⟨m, hm, by simpa [encodeGroups, groupByte3_eq] using h⟩
  | succ c ih =>
    obtain ⟨r', g', b', rest', rfl, hrest'⟩ := exists_triple hrest
    obtain ⟨m₁, hchip, h⟩ := consumeAll_chip g b hc hbi hprev (by omega)
    have hG0 := consume_phase0
      (s := afterPayload m₁ (s.ci + 3) (s.bi + 3) (some (groupByte3 b)) s) hc
      (isMarker_groupByte0 false r') (show s.ci + 3 < s.cfg.channels by omega)
      (phaseOf_eq_p0.mpr (show (s.bi + 3) % 4 = 0 by omega))
    obtain ⟨m₂, hchips, h'⟩ := ih
      (s := afterPayload m₁ (s.ci + 3) (s.bi + 4) (some (groupByte0 false r')) s) hc hrest'
      (show (s.bi + 4) % 4 = 1 by omega) rfl
      (show s.ci + 3 + 3 * (c + 1) ≤ s.cfg.channels by omega)
    refine ⟨m₂, hchip.append rfl hchips, ?_⟩
    rw [consumeAll_append, h, andThen_next, encodeGroups_cons, consumeAll, hG0, andThen_next]
    refine h'.trans ?_
    simp only [afterPayload_afterPayload, afterPayload_ci, afterPayload_bi, List.getLast?_cons_cons]
    congr 2 <;> omega

/-- The last byte of a run of groups is the low six bits of its last value. -/
theorem encodeGroups_getLast? {c : Nat} {v : List Byte} (first : Bool) (hv : v.length = 3 * c) :
    (encodeGroups first v).getLast? = v.getLast?.map (· &&& (0x3F : Byte)) := by
  induction c generalizing first v with
  | zero =>
    obtain rfl := List.length_eq_zero_iff.mp hv
    simp [encodeGroups]
  | succ c ih =>
    obtain ⟨r, g, b, rest, rfl, hrest⟩ := exists_triple hv
    rw [encodeGroups_cons]
    simp [List.getLast?_cons, ih false hrest, groupByte3_eq]

/-- The frame of `c` chips, as many as the decoder has or fewer, fills the first `3c` cells. -/
theorem consumeAll_frameOf {c : Nat} {v : List Byte} {s : State} (hc : s.cfg.Valid) (h1 : 1 ≤ c)
    (hv : v.length = 3 * c) (hfit : 3 * c ≤ s.cfg.channels) :
    ∃ m, CellsWritten s.cfg s.buf m 0 v ∧
      consumeAll (frameOf v) s =
        .next (afterPayload m (3 * c) (4 * c) (v.getLast?.map (· &&& (0x3F : Byte))) s) := by
  obtain ⟨c, rfl⟩ := Nat.exists_eq_add_of_le' h1
  obtain ⟨r, g, b, rest, rfl, hrest⟩ := exists_triple hv
  have hG0 := consume_marker hc (isMarker_groupByte0 true r)
  obtain ⟨m, hm, h⟩ := consumeAll_chips (g := g) (b := b)
    (s := { s with ci := 0, bi := 1, prev := some (groupByte0 true r), commit := true })
    hc hrest rfl rfl (by simpa using hfit)
  refine ⟨m, hm, ?_⟩
  rw [frameOf, encodeGroups_cons, consumeAll, hG0, andThen_next,
    show 4 * (c + 1) = 1 + 3 + 4 * c by omega, ← Nat.zero_add (3 * (c + 1))]
  exact h

/-- Settles O18: the frame is that of as many chips as the decoder has. -/
theorem encodedFrameDecodesToItself : Obligations.EncodedFrameDecodesToItself := by
  intro s v hc hv
  obtain ⟨m, hm, h⟩ := consumeAll_frameOf hc hc.1 hv le_rfl
  exact ⟨m, h, encodeGroups_getLast? true hv, fun j hj => by simpa using hm.written j (hv ▸ hj)⟩

end Sys2Proof.Machine

/-! PROOF. The decoder by its operations (41_decoder): each named operation on its row, then what is left
in the buffer by a frame that is cut short, runs on after `FULL`, or was encoded for another chip count. -/

namespace Sys2Proof.Machine

/-! ### Streams of payload bytes -/

/-- The frame of at least one chip is a resync byte and payload bytes. -/
theorem frameOf_eq_cons {c : Nat} {v : List Byte} (h1 : 1 ≤ c) (hv : v.length = 3 * c) :
    ∃ r ps, frameOf v = r :: ps ∧ ps.length + 1 = 4 * c ∧ isMarker r = true ∧
      ∀ b ∈ ps, isMarker b = false := by
  have hlen : (frameOf v).length = 4 * c := encodeGroups_length true hv
  cases hf : frameOf v with
  | nil =>
    rw [hf, List.length_nil] at hlen
    omega
  | cons r ps =>
    refine ⟨r, ps, rfl, by simpa [hf] using hlen, ?_, fun b hb => ?_⟩
    · exact (encodeGroups_topBits (first := true) (k := 0) (congrArg (·[0]?) hf)).2
    · obtain ⟨k, hk⟩ := List.getElem?_of_mem hb
      exact (encodeGroups_topBits (first := true) (k := k + 1)
        ((congrArg (·[k + 1]?) hf).trans hk)).2

/-- Only the first group of a frame has a marker. -/
theorem isMarker_of_mem_encodeGroups {v : List Byte} {b : Byte} (hb : b ∈ encodeGroups false v) :
    isMarker b = false := by
  obtain ⟨k, hk⟩ := List.getElem?_of_mem hb
  exact (encodeGroups_topBits hk).2

/-- The groups of a frame are cut at a chip's end as its values are. -/
theorem encodeGroups_append {c : Nat} {xs : List Byte} (first : Bool) (ys : List Byte)
    (hxs : xs.length = 3 * (c + 1)) :
    encodeGroups first (xs ++ ys) = encodeGroups first xs ++ encodeGroups false ys := by
  induction c generalizing first xs with
  | zero =>
    obtain ⟨r, g, b, rest, rfl, hrest⟩ := exists_triple hxs
    obtain rfl := List.length_eq_zero_iff.mp hrest
    simp [encodeGroups]
  | succ c ih =>
    obtain ⟨r, g, b, rest, rfl, hrest⟩ := exists_triple hxs
    simp [encodeGroups_cons, ih false hrest]

/-- With the gate closed, a non-empty payload stream changes `COMMIT` alone. -/
theorem consumeAll_closed {s : State} {b : Byte} {ps : List Byte} (hc : s.cfg.Valid)
    (hg : s.cfg.channels ≤ s.ci) (hps : ∀ x ∈ b :: ps, isMarker x = false) :
    consumeAll (b :: ps) s = .next { s with commit := false } := by
  rw [List.forall_mem_cons] at hps
  obtain ⟨hb, hps⟩ := hps
  rw [consumeAll, consume_closed hc hb hg, andThen_next]
  induction ps with
  | nil => rfl
  | cons x ps ih =>
    rw [List.forall_mem_cons] at hps
    rw [consumeAll, consume_closed (s := { s with commit := false }) hc hps.1 hg, andThen_next]
    exact ih hps.2

/-- From a cursor of R34 to R36 a payload byte is consumed, and `BI` rises up to `4C`. -/
theorem consume_payload_completes {s : State} {b : Byte} (hi : CursorInv s) (hc : s.cfg.Valid)
    (hb : isMarker b = false) :
    ∃ t, consume b s = .next t ∧ t.bi = min s.cfg.frameBytes (s.bi + 1) := by
  have hfull := isFull_iff_bi hi
  have hbi := hi.biBound
  rw [isFull_eq_true] at hfull
  by_cases hg : s.ci < s.cfg.channels
  · have hmin : s.bi + 1 = min s.cfg.frameBytes (s.bi + 1) := by omega
    by_cases hp : phase s = .p0
    · exact ⟨_, consume_phase0 hc hb hg hp, hmin⟩
    · have h1 : 1 ≤ s.bi := Nat.one_le_iff_ne_zero.mpr fun h0 => hp (by simp [phase, phaseOf, h0])
      obtain ⟨p, hprev⟩ := Option.ne_none_iff_exists'.mp (hi.prevWritten h1)
      obtain ⟨m, -, h⟩ := consume_completes_channel hc hb hg hp hprev
      exact ⟨_, h, hmin⟩
  · have hci := hi.ciBound
    have hmin : s.bi = min s.cfg.frameBytes (s.bi + 1) := by omega
    exact ⟨_, consume_closed hc hb (Nat.le_of_not_lt hg), hmin⟩

/-- A whole payload stream likewise. -/
theorem consumeAll_payload_completes {s : State} {ps : List Byte} (hi : CursorInv s)
    (hc : s.cfg.Valid) (hps : ∀ b ∈ ps, isMarker b = false) :
    ∃ t, consumeAll ps s = .next t ∧ CursorInv t ∧
      t.bi = min s.cfg.frameBytes (s.bi + ps.length) := by
  induction ps generalizing s with
  | nil => exact ⟨s, rfl, hi, (Nat.min_eq_right hi.biBound).symm⟩
  | cons b ps ih =>
    rw [List.forall_mem_cons] at hps
    obtain ⟨u, hu, hbi⟩ := consume_payload_completes hi hc hps.1
    have hcfg := (consume_frame hu).1
    obtain ⟨t, ht, hinv, hbi'⟩ := ih (consume_keeps_cursorInv hu hi) (hcfg ▸ hc) hps.2
    refine ⟨t, by rw [consumeAll, hu, andThen_next, ht], hinv, ?_⟩
    rw [hbi', hcfg, hbi, List.length_cons]
    omega

/-- A resync byte and `m - 1` payload bytes complete `min(N, m - ceil(m/4))` channels, whatever the prior
state, and leave the cells after those (41_decoder R146). -/
theorem consumeAll_resync_payload {s : State} {r : Byte} {ps : List Byte} (hc : s.cfg.Valid)
    (hr : isMarker r = true) (hps : ∀ b ∈ ps, isMarker b = false) :
    ∃ t, consumeAll (r :: ps) s = .next t ∧ t.cfg = s.cfg ∧
      t.ci = min s.cfg.channels ((ps.length + 1) - (ps.length + 1 + 3) / 4) ∧
      ∀ j, t.ci ≤ j → memRead t.cfg t.buf j = memRead s.cfg s.buf j := by
  have hresync := consume_marker hc hr
  have hcursor : CursorInv { s with ci := 0, bi := 1, prev := some r, commit := true } :=
    ⟨Nat.zero_le _, by have := hc.1; simp only [Config.frameBytes]; omega, by simp, by simp⟩
  obtain ⟨t, ht, hinv, hbi⟩ := consumeAll_payload_completes hcursor hc hps
  have hci := ci_eq_bi_sub_resyncs hinv
  refine ⟨t, by rw [consumeAll, hresync, andThen_next, ht], (consumeAll_frame ht).1, ?_,
    fun j hj => (consumeAll_payload_cells hps ht).2 j (.inr hj)⟩
  simp only [Config.frameBytes] at hbi
  rw [Config.channels]
  omega

/-! ### Frames that do not match the decoder (41_decoder R145, R146, R147, R149) -/

/-- Settles O20: the bytes that would complete the frame write only cells from `CI` on, so the cells below
it are those of the whole frame. -/
theorem truncatedFrameKeepsTheRest : Obligations.TruncatedFrameKeepsTheRest := by
  intro s v m r2 hc hv h1 hm hr2
  obtain ⟨m, rfl⟩ := Nat.exists_eq_add_of_le' h1
  obtain ⟨r, ps, hframe, hlen, hr, hps⟩ := frameOf_eq_cons hc.1 hv
  have htake : (frameOf v).take (m + 1) = r :: ps.take m := by rw [hframe, List.take_succ_cons]
  have hsplit : frameOf v = (r :: ps.take m) ++ ps.drop m := by
    rw [hframe, List.cons_append, List.take_append_drop]
  obtain ⟨t, ht, hcfg, hci, hothers⟩ :=
    consumeAll_resync_payload hc hr fun b hb => hps b (List.mem_of_mem_take hb)
  obtain ⟨m', hwhole, -, hvalues⟩ := encodedFrameDecodesToItself s v hc hv
  rw [hsplit, consumeAll_append, ht, andThen_next] at hwhole
  have hkept := (consumeAll_payload_cells (fun b hb => hps b (List.mem_of_mem_drop hb)) hwhole).2
  have hF : s.cfg.frameBytes = 4 * s.cfg.chipCount := rfl
  have hN : s.cfg.channels = 3 * s.cfg.chipCount := rfl
  rw [List.length_take_of_le (by omega)] at hci
  have hk : t.ci = m + 1 - (m + 1 + 3) / 4 := by omega
  have hresync : consumeAll ((frameOf v).take (m + 1) ++ [r2]) s =
      .next { t with ci := 0, bi := 1, prev := some r2, commit := true } := by
    rw [htake, consumeAll_append, ht, andThen_next, consumeAll,
      consume_marker (hcfg ▸ hc : t.cfg.Valid) hr2, andThen_next, consumeAll]
  refine ⟨_, hresync, rfl, rfl, rfl, rfl, fun j hj => ?_, fun j hj => hothers j (hk ▸ hj)⟩
  rw [← hk] at hj
  exact (hkept j (.inl hj)).symm.trans (hvalues j (by omega))

/-- Settles O21: the chips the decoder has room for make a frame that fills its cells, and the groups
after them write only cells from there on. -/
theorem mismatchedSenderFillsAPrefix : Obligations.MismatchedSenderFillsAPrefix := by
  intro s v ce hc h1 hv
  have hC := hc.1
  obtain ⟨r, ps, hframe, hlen, hr, hps⟩ := frameOf_eq_cons h1 hv
  obtain ⟨t, ht, -, hci, hothers⟩ := consumeAll_resync_payload hc hr hps
  obtain ⟨n, hn⟩ := Nat.exists_eq_add_of_le' (le_min h1 hC)
  have hmin : min (3 * ce) s.cfg.channels = 3 * (n + 1) := by rw [Config.channels]; omega
  have hw : (v.take (3 * (n + 1))).length = 3 * (n + 1) := by rw [List.length_take]; omega
  have hsplit : frameOf v =
      frameOf (v.take (3 * (n + 1))) ++ encodeGroups false (v.drop (3 * (n + 1))) := by
    rw [frameOf, frameOf, ← encodeGroups_append true _ hw, List.take_append_drop]
  obtain ⟨m, hm, hfit⟩ := consumeAll_frameOf hc (Nat.le_add_left 1 n) hw (by omega)
  have hrest := ht
  rw [← hframe, hsplit, consumeAll_append, hfit, andThen_next] at hrest
  have hkept := (consumeAll_payload_cells (fun _ => isMarker_of_mem_encodeGroups) hrest).2
  have hk : t.ci = min (3 * ce) s.cfg.channels := by rw [hci]; omega
  refine ⟨t, hframe ▸ ht, hk, fun j hj => ?_, fun j hj => hothers j (hk ▸ hj)⟩
  rw [hmin] at hj
  calc memRead t.cfg t.buf j
      = memRead s.cfg m j := hkept j (.inl hj)
    _ = (v.take (3 * (n + 1)))[j]? := by simpa using hm.written j (hw.symm ▸ hj)
    _ = v[j]? := List.getElem?_take_of_lt hj

/-- Settles O19. -/
theorem channelCountOfATruncatedFrame : Obligations.ChannelCountOfATruncatedFrame := by
  intro s r r2 ps hc hr hr2 hps
  obtain ⟨t, ht, hcfg, hci, hothers⟩ := consumeAll_resync_payload hc hr hps
  exact ⟨t, _, ht, hci, hothers, consume_marker (hcfg ▸ hc) hr2, rfl⟩

/-- Settles O16. -/
theorem payloadAfterFullChangesNothing : Obligations.PayloadAfterFullChangesNothing := by
  intro s ps hc hfull hps hne
  obtain ⟨b, ps, rfl⟩ := List.exists_cons_of_ne_nil hne
  exact consumeAll_closed hc hfull.ge hps

/-! ### The named operations (41_decoder R131, R134 to R137, R140, R141, R144) -/

/-- Settles O11. -/
theorem namedOperationsArePathsOfConsume : Obligations.NamedOperationsArePathsOfConsume :=
  fun s b => exec_decodeByte b s

/-- An operation does what `CONSUME` does where the operation map selects it. -/
theorem exec_of_selected {i : Instr} {b : Byte} {s : State} (h : decodeByte (selector s) b = i) :
    exec i s = consume b s :=
  h ▸ exec_decodeByte b s

/-- A payload byte with the gate open selects the operation of the phase. -/
theorem decodeByte_gated {b : Byte} {s : State} {ph : Phase} (hb : isMarker b = false)
    (hg : s.ci < s.cfg.channels) (hp : phase s = ph) :
    decodeByte (selector s) b = decodePayload ⟨true, ph⟩ b := by
  simp [decodeByte, hb, selector, gateOpen, hg, hp]

/-- What the three completing operations share (41_decoder R135 to R137): the value goes to cell `CI`. -/
theorem exec_completes_channel {b p : Byte} {s : State} {ph : Phase} (hc : s.cfg.Valid)
    (hb : isMarker b = false) (hg : s.ci < s.cfg.channels) (hp : phase s = ph) (h0 : ph ≠ .p0)
    (hprev : s.prev = some p) :
    ∃ m, exec (decodePayload ⟨true, ph⟩ b) s = .next { s with
        buf := m, ci := s.ci + 1, bi := s.bi + 1, prev := some b, commit := false } ∧
      memRead s.cfg m s.ci = some (completedValue ph p b) ∧
      ∀ j, j ≠ s.ci → memRead s.cfg m j = memRead s.cfg s.buf j := by
  subst hp
  obtain ⟨m, hm, h⟩ := consume_completes_channel hc hb hg h0 hprev
  refine ⟨m, (exec_of_selected (decodeByte_gated hb hg rfl)).trans h, hm.written 0 Nat.one_pos,
    fun j hj => hm.others j ?_⟩
  rw [List.length_singleton]
  omega

/-- Settles O4. -/
theorem resyncRestartsTheFrame : Obligations.ResyncRestartsTheFrame := by
  intro s b hc hb
  have hdec (sel : Selector) : decodeByte sel b = .consumeResync b :=
    decodeByte_of_row (c := s.cfg) rfl hb rfl
  refine ⟨hdec, (exec_of_selected (hdec _)).trans (consume_marker hc hb), ?_⟩
  simp [isFull, (channels_pos hc).ne]

/-- Settles O5: the state after a resync byte does not mention the cursor before it. -/
theorem resyncForgetsTheCursor : Obligations.ResyncForgetsTheCursor := by
  intro s b ci bi prev hc hb
  have hm : isMarker b = true := hb
  refine ⟨?_, by simp [hm], by simp [hm], _, consume_marker hc hm, rfl, rfl, rfl, rfl⟩
  rw [consume_marker hc hm, consume_marker (s := { s with ci := ci, bi := bi, prev := prev }) hc hm]

/-- Settles O6. -/
theorem phaseZeroByteIsCached : Obligations.PhaseZeroByteIsCached := by
  intro s b hc hb hg hbi
  have hp : phase s = .p0 := phaseOf_eq_p0.mpr hbi
  have hdec : decodeByte (selector s) b = .consumeP0 b := decodeByte_gated hb hg hp
  refine ⟨hdec, (exec_of_selected hdec).trans (consume_phase0 hc hb hg hp), ?_⟩
  simp [isFull, hg.ne]

/-- Settles O7. -/
theorem phaseOneCompletesRed : Obligations.PhaseOneCompletesRed := by
  intro s b p hc hb hg hbi hprev
  have hp : phase s = .p1 := phaseOf_eq_p1.mpr hbi
  obtain ⟨m, hexec, hcell, hothers⟩ := exec_completes_channel hc hb hg hp (by decide) hprev
  refine ⟨decodeByte_gated hb hg hp, m, hexec, hcell,
    hcell.trans (congrArg some (assembleR_eq_append p b)), hothers, fun hcursor => ?_⟩
  rw [hcursor.ciOfBi, Config.channels]
  omega

/-- Settles O8. -/
theorem phaseTwoCompletesGreen : Obligations.PhaseTwoCompletesGreen := by
  intro s b p hc hb hg hbi hprev
  have hp : phase s = .p2 := phaseOf_eq_p2.mpr hbi
  obtain ⟨m, hexec, hcell, hothers⟩ := exec_completes_channel hc hb hg hp (by decide) hprev
  refine ⟨decodeByte_gated hb hg hp, m, hexec, hcell,
    hcell.trans (congrArg some (assembleG_eq_append p b)), hothers, fun hcursor => ?_⟩
  rw [hcursor.ciOfBi, Config.channels]
  omega

/-- Settles O9. -/
theorem phaseThreeCompletesBlue : Obligations.PhaseThreeCompletesBlue := by
  intro s b p hc hb hg hbi hprev
  have hp : phase s = .p3 := phaseOf_eq_p3.mpr hbi
  obtain ⟨m, hexec, hcell, hothers⟩ := exec_completes_channel hc hb hg hp (by decide) hprev
  refine ⟨decodeByte_gated hb hg hp, m, hexec, hcell,
    hcell.trans (congrArg some (assembleB_eq_append p b)), hothers, fun hcursor => ?_⟩
  rw [hcursor.ciOfBi, Config.channels, Config.frameBytes]
  omega

/-- Settles O10. -/
theorem dropChangesCommitAlone : Obligations.DropChangesCommitAlone := by
  intro s b hc hb hfull
  have hdec : decodeByte (selector s) b = .consumeDrop b :=
    decodeByte_of_row (c := s.cfg) rfl ((Bool.not_eq_true' _).mpr hb)
      (by simp [rowCondition, selector, gateOpen, hfull])
  exact ⟨hdec, (exec_of_selected hdec).trans (consume_closed hc hb hfull.ge),
    isFull_eq_true.mpr hfull⟩

end Sys2Proof.Machine

/-! PROOF. The schedule and the kinds of step: what the loop's own step answers on a queued byte, on an
empty poll and while showing, and what an external turn answers (42_commit R170 to R174, R180, R181). -/

namespace Sys2Proof.Machine

/-! ### The schedule (logs 8, 18) -/

theorem drawnTurn_eq_elim (n : Nat) : drawnTurn n = (Config.arrival n).elim .loop .envRx := by
  unfold drawnTurn
  cases Config.arrival n <;> rfl

/-- Settles O43. -/
theorem nextTurnFollowsTheSchedule : Obligations.NextTurnFollowsTheSchedule := by
  refine ⟨fun s t ts h => nextTurn_of_cons h, fun s t ts h he => nextTurn_of_repeat h he,
    fun s h he => nextTurn_of_quiet h he, fun s n h he => ?_⟩
  rw [nextTurn_of_free h he, drawnTurn_eq_elim, ← h]
  rfl

/-! ### The loop's own step -/

/-- On a queued byte the loop's step is `CONSUME` of it (42_commit R170 to R172). -/
theorem loopStep_consume {s : State} {b : Byte} {rest : List Byte} (hl : s.loop = .consuming)
    (hq : s.rxq = b :: rest) :
    loopStep s = mapNext (consume b (setRxq rest s)) leaveOnCommit :=
  (loopStep_byte hl hq).trans (congrArg (mapNext · _) (exec_decodeByte b (setRxq rest s)))

theorem loopStep_show {s : State} {ws : List Byte} (hc : s.cfg.Valid) (hl : s.loop = .showing)
    (hws : snapshot s = some ws) : loopStep s = .next (setLoop .consuming (emitShow ws s)) := by
  rw [loopStep_showing hl, exec_showBuffer, execShowBuffer_next hc hws, mapNext_next]

theorem loopStep_endPoll {s : State} (hc : s.cfg.Valid) (hl : s.loop = .consuming)
    (hq : s.rxq = []) : loopStep s = .next (setLoop .showing s) := by
  rw [loopStep_empty hl hq, endPoll, requireConfig_of_valid hc]

/-- Settles O44. -/
theorem stepRunsTheDecodedByte : Obligations.StepRunsTheDecodedByte := by
  intro s s' i rest hn hl hd
  obtain ⟨ts, e, rfl⟩ := nextTurn_eq hn
  exact (step_of_loop hn).trans (loopStep_decoded (s := setSchedule ts e s) hl hd)

/-- Settles O45. -/
theorem stepWithoutAByte : Obligations.StepWithoutAByte := by
  refine ⟨fun s s' hc hn hl hq => ?_, fun s s' hn hl => ?_, fun s s' t i hn hi => step_of_turn hn hi⟩
  · obtain ⟨ts, e, rfl⟩ := nextTurn_eq hn
    exact (step_of_loop hn).trans (loopStep_endPoll (s := setSchedule ts e s) hc hl hq)
  · obtain ⟨ts, e, rfl⟩ := nextTurn_eq hn
    exact (step_of_loop hn).trans (loopStep_showing (s := setSchedule ts e s) hl)

/-! ### External turns -/

/-- Settles O40. -/
theorem envRxAppendsAtTheTail : Obligations.EnvRxAppendsAtTheTail := by
  refine fun s b hc => ⟨execEnvRx_next hc b, fun s' hn => ?_⟩
  obtain ⟨ts, e, rfl⟩ := nextTurn_eq hn
  exact (step_of_turn hn rfl).trans (execEnvRx_next (s := setSchedule ts e s) hc b)

/-- A session's external turn completes; it queues bytes and adds to the host's output, and leaves all
the rest (42_commit R181, 40_encoder R105). -/
theorem exec_sessionTurn {s : State} {x : Turn} {i : Instr} (hc : s.cfg.Valid)
    (hx : sessionTurn s.cfg x = true) (hi : turnInstr x = some i) :
    ∃ q out, exec i s = .next { s with rxq := s.rxq ++ q, encOut := s.encOut ++ out } := by
  cases x with
  | loop => cases hi
  | envRx b =>
    obtain rfl := Option.some.inj hi
    exact ⟨[b], [], (execEnvRx_next hc b).trans (by simp [setRxq])⟩
  | encodeFrame v =>
    obtain rfl := Option.some.inj hi
    have hv : v.length = s.cfg.channels := by
      simpa [sessionTurn, turnWf, turnInstr, Instr.wf] using hx
    exact ⟨[], frameOf v, (execEncodeFrame_next hc hv).trans (by simp)⟩
  | reset init => cases hx

theorem turnInstr_eq_none {x : Turn} : turnInstr x = none ↔ x = .loop := by
  cases x <;> simp [turnInstr]

/-- No external turn leaves a consuming loop showing: only ITERATION does, and it is no turn. -/
theorem exec_turn_consuming {s t : State} {x : Turn} {i : Instr} (hi : turnInstr x = some i)
    (h : exec i s = .next t) (hl : s.loop = .consuming) : t.loop = .consuming := by
  cases x with
  | loop => cases hi
  | envRx b =>
    obtain rfl := Option.some.inj hi
    rw [execEnvRx_eq_next h, setRxq_loop, hl]
  | encodeFrame v =>
    obtain rfl := Option.some.inj hi
    rw [execEncodeFrame_eq_next h, hl]
  | reset init =>
    obtain rfl := Option.some.inj hi
    rw [(execReset_eq_next h).2]
    rfl

/-! ### From consuming to showing (42_commit R172, R180) -/

/-- A consuming loop turns to showing on its own step only, which finds the queue empty or consumes a
resync byte. -/
theorem step_turns_to_showing {s t : State} (h : step s = .next t) (hl : s.loop = .consuming)
    (ht : t.loop = .showing) :
    (nextTurn s).1 = .loop ∧
      (s.rxq = [] ∨
        ∃ r rest, s.rxq = r :: rest ∧ isMarker r = true ∧ t.commit = true ∧ t.rxq = rest) := by
  obtain ⟨ts, e, hn⟩ := nextTurn_state s
  have hl' : (nextTurn s).2.loop = .consuming := by rw [hn, setSchedule_loop, hl]
  have hq' : (nextTurn s).2.rxq = s.rxq := by rw [hn, setSchedule_rxq]
  obtain ⟨hx, h⟩ | ⟨i, hi, h⟩ := step_cases h
  · refine ⟨turnInstr_eq_none.mp hx, ?_⟩
    obtain ⟨hs, -⟩ | ⟨-, r, rest, u, hq, hu, rfl⟩ | ⟨-, hq, -⟩ := loopStep_cases h
    · cases hl'.symm.trans hs
    · obtain ⟨-, huloop, hurxq, -⟩ := consume_frame hu
      have hcommit : u.commit = true := by
        by_contra hu0
        simp [hu0, huloop, hl'] at ht
      exact .inr ⟨r, rest, hq'.symm.trans hq, consume_commit hu ▸ hcommit, by simpa using hcommit,
        by simpa using hurxq⟩
    · exact .inl (hq'.symm.trans hq)
  · cases (exec_turn_consuming hi h hl').symm.trans ht

/-- Settles O46: the loop's step on a resync byte, its step while showing, an external turn, and
`step_turns_to_showing`. -/
theorem commitIsFollowedByOneShow : Obligations.CommitIsFollowedByOneShow := by
  refine ⟨fun s s' r rest hi hn hl hq hr => ?_, fun s s' hi hn hl => ?_,
    fun s s' x hi hn hx hsession => ?_, fun s t => step_turns_to_showing⟩
  · obtain ⟨ts, e, rfl⟩ := nextTurn_eq hn
    have hstep := loopStep_consume (s := setSchedule ts e s) hl hq
    rw [consume_marker (s := setRxq rest (setSchedule ts e s)) hi.config hr] at hstep
    exact ⟨_, (step_of_loop hn).trans hstep, rfl, rfl, rfl, rfl, rfl⟩
  · obtain ⟨ts, e, rfl⟩ := nextTurn_eq hn
    obtain ⟨ws, hws⟩ := snapshot_isSome hi.config
    have hstep := loopStep_show (s := setSchedule ts e s) hi.config hl hws
    exact ⟨_, ws, hws, (step_of_loop hn).trans hstep, rfl, rfl, rfl, rfl, rfl, rfl, rfl⟩
  · obtain ⟨ts, e, rfl⟩ := nextTurn_eq hn
    obtain ⟨i, hturn⟩ := Option.ne_none_iff_exists'.mp (mt turnInstr_eq_none.mp hx)
    obtain ⟨q, out, hexec⟩ := exec_sessionTurn (s := setSchedule ts e s) hi.config hsession hturn
    exact ⟨_, (step_of_turn hn hturn).trans hexec, rfl, rfl, rfl⟩

end Sys2Proof.Machine

/-! PROOF. SHOW and ITERATION: the calls of a SHOW chip by chip, and an iteration as the bytes it takes
followed by one SHOW (42_commit R170 to R173, R178, R184). -/

namespace Sys2Proof.Machine

/-! ### The sink's calls (42_commit R173) -/

/-- The calls for the snapshot of `c` chips are one `setColor` per chip, in ascending order. -/
theorem colorCalls_eq_map {c : Nat} {ws : List Byte} (i : Nat) (hws : ws.length = 3 * c) :
    colorCalls i ws = (List.range c).map fun j =>
      .setColor (i + j) (ws.getD (3 * j) 0) (ws.getD (3 * j + 1) 0) (ws.getD (3 * j + 2) 0) := by
  induction c generalizing i ws with
  | zero =>
    obtain rfl := List.length_eq_zero_iff.mp hws
    simp [colorCalls]
  | succ c ih =>
    obtain ⟨r, g, b, rest, rfl, hrest⟩ := exists_triple hws
    simp [colorCalls, ih (i + 1) hrest, List.range_succ_eq_map, Nat.mul_add, Nat.add_right_comm,
      Nat.add_assoc, Nat.add_comm 1]

/-- Settles O30. -/
theorem showPresentsTheWholeBuffer : Obligations.ShowPresentsTheWholeBuffer := by
  intro s hc
  obtain ⟨ws, hws⟩ := snapshot_isSome hc
  obtain ⟨hlen, hcells⟩ := snapshot_spec hws
  refine ⟨ws, hlen, fun i _ => (hcells i).symm, (execShowBuffer_next hc hws).trans ?_⟩
  simp [emitShow, showCalls, colorCalls_eq_map 0 hlen]

/-! ### An iteration (42_commit R170) -/

/-- An iteration whose consumption phase completes shows the buffer it left, once. -/
theorem execIteration_next {s t : State} {ws : List Byte} (hc : s.cfg.Valid)
    (ht : consumePhase s.rxq (setLoop .consuming s) = .next t) (hws : snapshot t = some ws) :
    execIteration s = .next (emitShow ws (setLoop .showing t)) := by
  have hpresent : presentBuffer (setLoop .showing t) = .next (emitShow ws (setLoop .showing t)) :=
    presentBuffer_next hws
  rw [execIteration, requireConfig_of_valid hc, ht, andThen_next, hpresent]

theorem consumePhase_completes {s : State} (hi : Inv s) (q : List Byte) :
    ∃ t, consumePhase q s = .next t := by
  induction q generalizing s with
  | nil => exact ⟨s, rfl⟩
  | cons b rest ih =>
    obtain ⟨u, hu⟩ := consume_completes (inv_setRxq hi rest) b
    rw [consumePhase, hu, andThen_next]
    split
    · exact ⟨u, rfl⟩
    · exact ih (consume_keeps_inv hu (inv_setRxq hi rest))

/-- Settles O32: the phase completes under the invariant, and `consumePhase_cases` says what it took. -/
theorem iterationConsumesThenShows : Obligations.IterationConsumesThenShows := by
  intro s hi
  obtain ⟨t, ht⟩ := consumePhase_completes (inv_setLoop hi .consuming) s.rxq
  obtain ⟨taken, left, hq, -, hall, hstop⟩ := consumePhase_cases (setLoop_rxq _ _) ht
  obtain ⟨hcfg, -, -, hdisplay, hcalls, -, -, -⟩ := consumeAll_frame hall
  have hc : t.cfg.Valid := by simpa [hcfg] using hi.config
  obtain ⟨ws, hws⟩ := snapshot_isSome hc
  refine ⟨taken, left, ws, t, hq, hstop, hall, hws,
    (execIteration_next hi.config ht hws).trans ?_⟩
  simp [emitShow, setLoop, hdisplay, hcalls]

/-- Consuming does not depend on the loop's position. -/
theorem consumeAll_setLoop (bs : List Byte) (p : LoopPos) (s : State) :
    consumeAll bs (setLoop p s) = mapNext (consumeAll bs s) (setLoop p) := by
  refine (consumeAll_withOuter bs p s.rxq s.display s.sinkCalls s.encOut s.inputs s.env s).trans ?_
  cases ht : consumeAll bs s with
  | fault f => rfl
  | refused r => rfl
  | next t =>
    obtain ⟨-, -, hrxq, hdisplay, hcalls, henc, hinputs, henv⟩ := consumeAll_frame ht
    simp only [mapNext_next, withOuter, setLoop, hrxq, hdisplay, hcalls, henc, hinputs, henv]

/-- The phase on payload bytes and a resync byte: the payload bytes are consumed, then the resync byte
restarts the cursor, and what follows it stays queued (42_commit R172). -/
theorem consumePhase_resync {s u : State} {ps : List Byte} {r : Byte} (rest : List Byte)
    (hc : s.cfg.Valid) (hps : ∀ b ∈ ps, isMarker b = false) (hr : isMarker r = true)
    (hu : consumeAll ps s = .next u) :
    consumePhase (ps ++ r :: rest) s =
      .next { setRxq rest u with ci := 0, bi := 1, prev := some r, commit := true } := by
  have hcu : (setRxq rest u).cfg.Valid := by simpa [(consumeAll_frame hu).1] using hc
  rw [consumePhase_marker hps hr, consumeAll_append, consumeAll_setRxq, hu, mapNext_next,
    andThen_next, consumeAll, consume_marker hcu hr, andThen_next, consumeAll]

/-- Settles O33. -/
theorem iterationLeavesEarlyOnResync : Obligations.IterationLeavesEarlyOnResync := by
  intro s ps rest r hi hq hps hr
  obtain ⟨u, hu⟩ := consumeAll_completes hi ps
  obtain ⟨hcfg, -, -, hdisplay, -, -, -, -⟩ := consumeAll_frame hu
  obtain ⟨ws, hws⟩ := snapshot_isSome (s := u) (hcfg ▸ hi.config)
  have hpayload : consumeAll ps (setLoop .consuming s) = .next (setLoop .consuming u) := by
    rw [consumeAll_setLoop, hu, mapNext_next]
  have hphase := consumePhase_resync (s := setLoop .consuming s) rest hi.config hps hr hpayload
  rw [← hq] at hphase
  exact ⟨u, _, ws, hu, hws, execIteration_next hi.config hphase hws,
    rfl, rfl, rfl, rfl, rfl, rfl, congrArg (· ++ [ws]) hdisplay⟩

/-- On an empty queue an iteration adds the snapshot, and besides it moves `LOOP` only. -/
theorem execIteration_of_empty {s : State} {ws : List Byte} (hc : s.cfg.Valid) (hq : s.rxq = [])
    (hws : snapshot s = some ws) : execIteration s = .next (emitShow ws (setLoop .showing s)) := by
  have hphase : consumePhase s.rxq (setLoop .consuming s) = .next (setLoop .consuming s) := by
    rw [hq, consumePhase]
  exact execIteration_next (t := setLoop .consuming s) hc hphase hws

/-- With no byte arriving, every iteration shows the same snapshot. -/
theorem runIterations_of_empty {s : State} {ws : List Byte} (n : Nat) (hc : s.cfg.Valid)
    (hq : s.rxq = []) (hws : snapshot s = some ws) :
    ∃ t, runIterations n s = .next t ∧ t.display = s.display ++ List.replicate n ws ∧
      t.ci = s.ci ∧ t.bi = s.bi ∧ t.prev = s.prev ∧ t.buf = s.buf ∧ t.rxq = [] := by
  induction n generalizing s with
  | zero => exact ⟨s, rfl, by simp, rfl, rfl, rfl, rfl, hq⟩
  | succ n ih =>
    obtain ⟨t, ht, hdisplay, hrest⟩ := ih (s := emitShow ws (setLoop .showing s)) hc hq hws
    refine ⟨t, ?_, by simp [hdisplay, List.replicate_succ], hrest⟩
    rw [runIterations, exec_iteration, execIteration_of_empty hc hq hws, andThen_next, ht]

/-- Settles O35. -/
theorem stalledSenderFreezesTheDisplay : Obligations.StalledSenderFreezesTheDisplay := by
  intro s n hc hq
  obtain ⟨ws, hws⟩ := snapshot_isSome hc
  obtain ⟨t, ht⟩ := runIterations_of_empty n hc hq hws
  exact ⟨ws, t, hws, ht⟩

end Sys2Proof.Machine

/-! PROOF. An iteration as a run of the loop's own steps: the loop's step commutes with any change of the
schedule, so a run on the loop's turns is the loop's step iterated, and that is ITERATION's consumption
phase byte by byte, then its SHOW (42_commit R170, R175). -/

namespace Sys2Proof.Machine

/-! ### Runs on the loop's turns -/

/-- `k` steps of the loop with no other turn between them. -/
def loopSteps : Nat → State → Result
  | 0, s => .next s
  | k + 1, s => andThen (loopStep s) (loopSteps k)

theorem loopSteps_succ (k : Nat) (s : State) :
    loopSteps (k + 1) s = andThen (loopStep s) (loopSteps k) := rfl

theorem consume_setSchedule (b : Byte) (ts : List Turn) (e : Environment) (s : State) :
    consume b (setSchedule ts e s) = mapNext (consume b s) (setSchedule ts e) := by
  refine (consume_withOuter b s.loop s.rxq s.display s.sinkCalls s.encOut ts e s).trans ?_
  cases ht : consume b s with
  | fault f => rfl
  | refused r => rfl
  | next t =>
    obtain ⟨-, hloop, hrxq, hdisplay, hcalls, henc, -, -⟩ := consume_frame ht
    simp only [mapNext_next, withOuter, setSchedule, hloop, hrxq, hdisplay, hcalls, henc]

theorem execShowBuffer_setSchedule (ts : List Turn) (e : Environment) (s : State) :
    execShowBuffer (setSchedule ts e s) = mapNext (execShowBuffer s) (setSchedule ts e) := by
  have hsnap : snapshot (setSchedule ts e s) = snapshot s := snapshot_congr rfl rfl
  simp only [execShowBuffer, mapNext_requireConfig, presentBuffer, hsnap, setSchedule_cfg]
  cases snapshot s <;> rfl

theorem leaveOnCommit_setSchedule (ts : List Turn) (e : Environment) (s : State) :
    leaveOnCommit (setSchedule ts e s) = setSchedule ts e (leaveOnCommit s) := by
  unfold leaveOnCommit
  rw [setSchedule_commit]
  split <;> rfl

/-- The loop's step does not read the schedule. -/
theorem loopStep_setSchedule (ts : List Turn) (e : Environment) (s : State) :
    loopStep (setSchedule ts e s) = mapNext (loopStep s) (setSchedule ts e) := by
  cases hl : s.loop with
  | showing =>
    rw [loopStep_showing hl, loopStep_showing (s := setSchedule ts e s) hl, exec_showBuffer,
      exec_showBuffer, execShowBuffer_setSchedule, mapNext_mapNext, mapNext_mapNext]
    rfl
  | consuming =>
    cases hq : s.rxq with
    | nil =>
      rw [loopStep_empty hl hq, loopStep_empty (s := setSchedule ts e s) hl hq, endPoll, endPoll,
        mapNext_requireConfig]
      rfl
    | cons b rest =>
      have hset : setRxq rest (setSchedule ts e s) = setSchedule ts e (setRxq rest s) := rfl
      rw [loopStep_consume hl hq, loopStep_consume (s := setSchedule ts e s) hl hq, hset,
        consume_setSchedule, mapNext_mapNext, mapNext_mapNext]
      simp only [leaveOnCommit_setSchedule]

/-- On a schedule whose next `k` turns are the loop's, `k` steps are the loop's own. -/
theorem runSteps_of_loop_turns (k : Nat) (ts : List Turn) (e : Environment) (s : State) :
    runSteps k (setSchedule (List.replicate k .loop ++ ts) e s) =
      loopSteps k (setSchedule ts e s) := by
  induction k generalizing s with
  | zero => rfl
  | succ k ih =>
    have hn : nextTurn (setSchedule (List.replicate (k + 1) .loop ++ ts) e s) =
        (.loop, setSchedule (List.replicate k .loop ++ ts) e s) := nextTurn_of_cons rfl
    rw [runSteps_succ, step_of_loop hn, loopSteps_succ, loopStep_setSchedule, loopStep_setSchedule]
    cases loopStep s with
    | fault f => rfl
    | refused r => rfl
    | next t => exact ih t

/-- Where the loop runs alone, every step is its own. -/
theorem runSteps_of_quiet (k : Nat) {s : State} (hin : s.inputs = []) (he : s.env = .repeating []) :
    runSteps k s = loopSteps k s := by
  induction k generalizing s with
  | zero => rfl
  | succ k ih =>
    rw [runSteps_succ, step_of_loop (nextTurn_of_quiet hin he), loopSteps_succ]
    cases ht : loopStep s with
    | fault f => rfl
    | refused r => rfl
    | next t =>
      obtain ⟨-, hinputs, henv⟩ := loopStep_keeps_schedule ht
      exact ih (hinputs.trans hin) (henv.trans he)

/-! ### The loop's steps of an iteration -/

theorem loopSteps_add (k l : Nat) (s : State) :
    loopSteps (k + l) s = andThen (loopSteps k s) (loopSteps l) := by
  induction k generalizing s with
  | zero => rw [Nat.zero_add]; rfl
  | succ k ih =>
    rw [Nat.succ_add, loopSteps_succ, loopSteps_succ, andThen_assoc]
    congr 1
    exact funext ih

/-- How many steps the consumption phase takes on a queue: one for each byte up to the first resync byte,
or one for each byte and the empty poll. -/
def phaseSteps : List Byte → Nat
  | [] => 1
  | b :: rest => (if isMarker b then 0 else phaseSteps rest) + 1

/-- The loop's steps on a queue are the consumption phase, which leaves the loop showing. -/
theorem loopSteps_phase {s : State} {q : List Byte} (hc : s.cfg.Valid) (hl : s.loop = .consuming)
    (hq : s.rxq = q) :
    loopSteps (phaseSteps q) s = mapNext (consumePhase q s) (setLoop .showing) := by
  induction q generalizing s with
  | nil => rw [phaseSteps, loopSteps_succ, loopStep_endPoll hc hl hq]; rfl
  | cons b rest ih =>
    rw [phaseSteps, loopSteps_succ, loopStep_consume hl hq, consumePhase]
    cases hu : consume b (setRxq rest s) with
    | fault f => rfl
    | refused r => rfl
    | next u =>
      obtain ⟨hcfg, hloop, hrxq, -⟩ := consume_frame hu
      rw [mapNext_next, andThen_next, andThen_next, leaveOnCommit, consume_commit hu]
      by_cases hb : isMarker b = true
      · simp only [if_pos hb]
        rfl
      · simp only [if_neg hb]
        exact ih (by simpa [hcfg] using hc) (hloop.trans hl) hrxq

theorem requireConfig_idem (c : Config) (o : Result) :
    requireConfig c (requireConfig c o) = requireConfig c o := by
  unfold requireConfig
  split <;> rfl

theorem andThen_requireConfig (c : Config) (o : Result) (k : State → Result) :
    andThen (requireConfig c o) k = requireConfig c (andThen o k) := by
  unfold requireConfig
  split <;> rfl

/-- Every step of the loop checks the configuration (60_exceptions R208; log 14). -/
theorem requireConfig_loopStep (s : State) : requireConfig s.cfg (loopStep s) = loopStep s := by
  cases hl : s.loop with
  | showing =>
    rw [loopStep_showing hl, exec_showBuffer, execShowBuffer, mapNext_requireConfig,
      requireConfig_idem]
  | consuming =>
    cases hq : s.rxq with
    | nil => rw [loopStep_empty hl hq, endPoll, requireConfig_idem]
    | cons b rest =>
      have hcheck : requireConfig s.cfg (consume b (setRxq rest s)) = consume b (setRxq rest s) :=
        requireConfig_consume b (setRxq rest s)
      rw [loopStep_consume hl hq, ← mapNext_requireConfig, hcheck]

/-- A step of the showing loop presents the buffer and begins the next iteration (log 11). -/
theorem loopSteps_show {s : State} (hc : s.cfg.Valid) (hl : s.loop = .showing) :
    loopSteps 1 s = mapNext (presentBuffer s) (setLoop .consuming) := by
  obtain ⟨ws, hws⟩ := snapshot_isSome hc
  rw [loopSteps, loopStep_show hc hl hws, presentBuffer_next hws]
  rfl

/-- From the start of an iteration the loop's steps through the phase and the SHOW are ITERATION, and
the start of the next one (log 11). -/
theorem loopSteps_iteration {s : State} (hl : s.loop = .consuming) :
    loopSteps (phaseSteps s.rxq + 1) s = mapNext (exec .iteration s) (setLoop .consuming) := by
  have hstart : setLoop .consuming s = s := by rw [← hl]; rfl
  rw [exec_iteration, execIteration, mapNext_requireConfig, hstart, loopSteps_succ,
    ← requireConfig_loopStep s, andThen_requireConfig, ← loopSteps_succ]
  refine requireConfig_congr fun hc => ?_
  rw [loopSteps_add, loopSteps_phase hc hl rfl]
  cases ht : consumePhase s.rxq s with
  | fault f => rfl
  | refused r => rfl
  | next t =>
    obtain ⟨taken, left, -, -, hall, -⟩ := consumePhase_cases rfl ht
    have hcfg : t.cfg = s.cfg := (consumeAll_frame hall).1
    exact loopSteps_show (s := setLoop .showing t) (hcfg ▸ hc : t.cfg.Valid) rfl

/-- Settles O34. -/
theorem iterationIsARunOfLoopSteps : Obligations.IterationIsARunOfLoopSteps := by
  refine fun s hl => ⟨phaseSteps s.rxq + 1, fun turns e => ?_, fun hin he => ?_⟩
  · exact (runSteps_of_loop_turns _ turns e s).trans
      (loopSteps_iteration (s := setSchedule turns e s) hl)
  · exact (runSteps_of_quiet _ hin he).trans (loopSteps_iteration hl)

end Sys2Proof.Machine

/-! PROOF. When a SHOW happens (42_commit R183): payload that keeps ahead of the loop for ever puts it
off for ever; turns that end, or a resync byte in the queue, bring it about. -/

namespace Sys2Proof.Machine

/-- On its turn the consuming loop consumes the head byte, which shows nothing and ends the phase if it is
a resync byte. -/
theorem step_consumes {s : State} {b : Byte} {rest : List Byte} {ts : List Turn} {e : Environment}
    (hi : Inv s) (hn : nextTurn s = (.loop, setSchedule ts e s)) (hl : s.loop = .consuming)
    (hq : s.rxq = b :: rest) :
    ∃ t, step s = .next t ∧ t.rxq = rest ∧ t.loop = (if isMarker b then .showing else .consuming) ∧
      t.display = s.display ∧ t.sinkCalls = s.sinkCalls ∧ t.inputs = ts ∧ t.env = e := by
  obtain ⟨u, hu⟩ := consume_completes (inv_setRxq (inv_setSchedule hi ts e) rest) b
  have hstep := loopStep_consume (s := setSchedule ts e s) hl hq
  rw [← step_of_loop hn, hu, mapNext_next] at hstep
  obtain ⟨-, hloop, hrxq, hdisplay, hcalls, -, hinputs, henv⟩ := consume_frame hu
  exact ⟨_, hstep, by simp [hrxq, hloop, hdisplay, hcalls, hinputs, henv, consume_commit hu, hl]⟩

/-! ### Payload without end -/

/-- More bytes in the queue only help the environment to stay ahead of the loop. -/
theorem keepsAhead_mono {q q' : Nat} {ts : List Turn} (hq : q ≤ q') (h : keepsAhead q ts = true) :
    keepsAhead q' ts = true := by
  induction ts generalizing q q' with
  | nil => rfl
  | cons x ts ih =>
    cases x with
    | loop =>
      obtain ⟨hpos, h⟩ : 0 < q ∧ keepsAhead (q - 1) ts = true := by simpa [keepsAhead] using h
      simp [keepsAhead, hpos.trans_le hq, ih (Nat.sub_le_sub_right hq 1) h]
    | envRx b =>
      obtain ⟨hb, h⟩ : isMarker b = false ∧ keepsAhead (q + 1) ts = true := by
        simpa [keepsAhead] using h
      simp [keepsAhead, hb, ih (Nat.add_le_add_right hq 1) h]
    | encodeFrame v => exact h
    | reset init => exact h

/-- A consuming loop with payload bytes queued, and an environment that delivers payload bytes faster
than the loop takes them, for ever. -/
structure PayloadAhead (s : State) : Prop where
  inv : Inv s
  consuming : s.loop = .consuming
  queue : ∀ b ∈ s.rxq, isMarker b = false
  listed : keepsAhead s.rxq.length s.inputs = true
  forever : ∃ cycle, s.env = .repeating cycle ∧ cycle ≠ [] ∧ keepsAhead 0 cycle = true

/-- Such an environment takes a turn, and keeps ahead with it and the turns left. -/
theorem payloadAhead_nextTurn {s : State} (h : PayloadAhead s) :
    ∃ x ts, nextTurn s = (x, setSchedule ts s.env s) ∧ keepsAhead s.rxq.length (x :: ts) = true := by
  obtain ⟨-, -, -, hlisted, cycle, henv, hne, hcycle⟩ := h
  cases hin : s.inputs with
  | cons x ts => exact ⟨x, ts, nextTurn_of_cons hin, hin ▸ hlisted⟩
  | nil =>
    obtain ⟨x, ts, rfl⟩ := List.exists_cons_of_ne_nil hne
    exact ⟨x, ts, nextTurn_of_repeat hin henv, keepsAhead_mono (Nat.zero_le _) hcycle⟩

/-- Its step delivers or consumes a payload byte, and shows nothing. -/
theorem payloadAhead_step {s : State} (h : PayloadAhead s) :
    ∃ t, step s = .next t ∧ PayloadAhead t ∧ t.display = s.display ∧ t.sinkCalls = s.sinkCalls := by
  obtain ⟨x, ts, hn, hahead⟩ := payloadAhead_nextTurn h
  have hqueue := h.queue
  cases x with
  | loop =>
    obtain ⟨hpos, hahead⟩ : 0 < s.rxq.length ∧ keepsAhead (s.rxq.length - 1) ts = true := by
      simpa only [keepsAhead, Bool.and_eq_true, decide_eq_true_eq] using hahead
    obtain ⟨b, rest, hq⟩ := List.exists_cons_of_length_pos hpos
    rw [hq, List.forall_mem_cons] at hqueue
    obtain ⟨t, ht, hrxq, hloop, hdisplay, hcalls, hinputs, henv⟩ :=
      step_consumes h.inv hn h.consuming hq
    refine ⟨t, ht, ⟨step_keeps_inv ht h.inv, by simpa [hqueue.1] using hloop, hrxq ▸ hqueue.2, ?_,
      henv ▸ h.forever⟩, hdisplay, hcalls⟩
    simpa [hrxq, hinputs, hq] using hahead
  | envRx b =>
    obtain ⟨hb, hahead⟩ : isMarker b = false ∧ keepsAhead (s.rxq.length + 1) ts = true := by
      simpa [keepsAhead] using hahead
    have ht := (envRxAppendsAtTheTail s b h.inv.config).2 _ hn
    refine ⟨_, ht, ⟨step_keeps_inv ht h.inv, h.consuming, fun y hy => ?_, by simpa using hahead,
      h.forever⟩, rfl, rfl⟩
    obtain hy | hy := List.mem_append.mp hy
    · exact hqueue y hy
    · exact List.mem_singleton.mp hy ▸ hb
  | encodeFrame v => cases hahead
  | reset init => cases hahead

/-- However many steps are taken, nothing is shown. -/
theorem payloadAhead_runSteps {s : State} (h : PayloadAhead s) (k : Nat) :
    ∃ t, runSteps k s = .next t ∧ t.display = s.display ∧ t.sinkCalls = s.sinkCalls ∧
      t.loop = .consuming := by
  induction k generalizing s with
  | zero => exact ⟨s, rfl, rfl, rfl, h.consuming⟩
  | succ k ih =>
    obtain ⟨u, hu, hahead, hdisplay, hcalls⟩ := payloadAhead_step h
    obtain ⟨t, ht, htdisplay, htcalls, hloop⟩ := ih hahead
    exact ⟨t, by rw [runSteps_succ, hu, andThen_next, ht], htdisplay.trans hdisplay,
      htcalls.trans hcalls, hloop⟩

/-- Settles O36. -/
theorem endlessPayloadNeverShows : Obligations.EndlessPayloadNeverShows := by
  refine ⟨fun s t h hl ht => ?_, fun s cycle hi hl hq hlisted henv hne hcycle k =>
    payloadAhead_runSteps ⟨hi, hl, hq, hlisted, cycle, henv, hne, hcycle⟩ k⟩
  obtain ⟨-, hempty | ⟨r, rest, hq, hr, -, hrxq⟩⟩ := step_turns_to_showing h hl ht
  · exact .inl hempty
  · exact .inr ⟨r, rest, hq, hr, hrxq⟩

/-! ### The turns of a session -/

/-- A state of the invariant whose listed turns go on with the session. -/
structure SessionInv (s : State) : Prop where
  inv : Inv s
  turns : ∀ x ∈ s.inputs, sessionTurn s.cfg x = true

theorem turnWf_of_sessionTurn {c : Config} {x : Turn} (h : sessionTurn c x = true) :
    turnWf c x = true := by
  cases x with
  | loop => rfl
  | envRx b => rfl
  | encodeFrame v => exact h
  | reset init => cases h

/-- The loop's step keeps the parameters and the snapshots shown so far. -/
theorem loopStep_display {s t : State} (h : loopStep s = .next t) :
    t.cfg = s.cfg ∧ ∃ new, t.display = s.display ++ new := by
  obtain ⟨-, ws, -, rfl⟩ | ⟨-, b, rest, u, -, hu, rfl⟩ | ⟨-, -, rfl⟩ := loopStep_cases h
  · exact ⟨rfl, [ws], rfl⟩
  · obtain ⟨hcfg, -, -, hdisplay, -⟩ := consume_frame hu
    exact ⟨by simp [hcfg], [], by simp [hdisplay]⟩
  · exact ⟨rfl, [], by simp⟩

/-- A session's step completes, takes its turn, and keeps the snapshots shown so far. -/
theorem sessionInv_step {s : State} {x : Turn} {xs : List Turn} (h : SessionInv s)
    (hin : s.inputs = x :: xs) :
    ∃ t, step s = .next t ∧ SessionInv t ∧ t.inputs = xs ∧ t.env = s.env ∧
      ∃ new, t.display = s.display ++ new := by
  have hturns := h.turns
  rw [hin, List.forall_mem_cons] at hturns
  have hn := nextTurn_of_cons hin
  suffices hstep : ∃ t, step s = .next t ∧ t.cfg = s.cfg ∧ ∃ new, t.display = s.display ++ new by
    obtain ⟨t, ht, hcfg, hdisplay⟩ := hstep
    obtain ⟨-, hinputs, henv⟩ := step_keeps_schedule ht
    rw [hn] at hinputs henv
    refine ⟨t, ht, ⟨step_keeps_inv ht h.inv, ?_⟩, hinputs, henv, hdisplay⟩
    rw [hinputs, hcfg]
    exact hturns.2
  cases hturn : turnInstr x with
  | none =>
    obtain rfl := turnInstr_eq_none.mp hturn
    obtain ⟨t, ht⟩ := loopStep_completes (inv_setSchedule h.inv xs s.env)
    exact ⟨t, (step_of_loop hn).trans ht, loopStep_display (s := setSchedule xs s.env s) ht⟩
  | some i =>
    obtain ⟨q, out, hexec⟩ :=
      exec_sessionTurn (s := setSchedule xs s.env s) h.inv.config hturns.1 hturn
    exact ⟨_, (step_of_turn hn hturn).trans hexec, rfl, [], by simp⟩

/-- All the listed turns of a session are taken. -/
theorem sessionInv_run {s : State} {turns : List Turn} (h : SessionInv s) (hin : s.inputs = turns) :
    ∃ t, runSteps turns.length s = .next t ∧ Inv t ∧ t.inputs = [] ∧ t.env = s.env ∧
      ∃ new, t.display = s.display ++ new := by
  induction turns generalizing s with
  | nil => exact ⟨s, rfl, h.inv, hin, rfl, [], by simp⟩
  | cons x xs ih =>
    obtain ⟨u, hu, hsession, hinputs, henv, new, hnew⟩ := sessionInv_step h hin
    obtain ⟨t, ht, hinv, htinputs, htenv, new', hnew'⟩ := ih hsession hinputs
    refine ⟨t, ?_, hinv, htinputs, htenv.trans henv, new ++ new', by simp [hnew', hnew]⟩
    rw [List.length_cons, runSteps_succ, hu, andThen_next, ht]

/-! ### The environment stops -/

/-- The loop alone shows: at once where it is showing, else with the iteration it is in. -/
theorem runSteps_quiet_shows {s : State} (hi : Inv s) (hin : s.inputs = [])
    (he : s.env = .repeating []) :
    ∃ k t ws, runSteps k s = .next t ∧ t.display = s.display ++ [ws] := by
  cases hl : s.loop with
  | showing =>
    obtain ⟨ws, hws⟩ := snapshot_isSome hi.config
    have hrun := (runSteps_of_quiet 1 hin he).trans (loopSteps_show hi.config hl)
    rw [presentBuffer_next hws, mapNext_next] at hrun
    exact ⟨1, _, ws, hrun, rfl⟩
  | consuming =>
    obtain ⟨-, -, ws, t, -, -, -, -, hiter⟩ := iterationConsumesThenShows s hi
    have hrun := (runSteps_of_quiet _ hin he).trans (loopSteps_iteration hl)
    rw [hiter, mapNext_next] at hrun
    exact ⟨_, _, ws, hrun, rfl⟩

/-- Settles O37: the listed turns are taken, then the loop alone shows. -/
theorem showHappensOnceTheEnvironmentStops : Obligations.ShowHappensOnceTheEnvironmentStops := by
  intro s hi he hturns
  obtain ⟨u, hu, hinv, hin, henv, new, hnew⟩ := sessionInv_run ⟨hi, hturns⟩ rfl
  obtain ⟨k, t, ws, ht, hws⟩ := runSteps_quiet_shows hinv hin (henv.trans he)
  refine ⟨s.inputs.length + k, t, new ++ [ws], ?_, by simp, by simp [hws, hnew]⟩
  rw [runSteps_add, hu, andThen_next, ht]

/-! ### A resync byte is queued -/

/-- At most `n` steps of the loop show: it is showing, or a resync byte is queued so that its `CONSUME`
and the SHOW after it are among them. -/
def ShowsWithin (n : Nat) (s : State) : Prop :=
  (s.loop = .showing ∧ 1 ≤ n) ∨
    ∃ ps r rest, s.rxq = ps ++ r :: rest ∧ isMarker r = true ∧ ps.length + 2 ≤ n

/-- On its turn the loop shows, or comes one step nearer to it. -/
theorem step_loop_showsWithin {s : State} {xs : List Turn} {n : Nat} (hi : Inv s)
    (hin : s.inputs = .loop :: xs) (h : ShowsWithin (n + 1) s) :
    ∃ t, step s = .next t ∧
      ((∃ ws, t.display = s.display ++ [ws]) ∨ (t.display = s.display ∧ ShowsWithin n t)) := by
  have hn := nextTurn_of_cons hin
  cases hl : s.loop with
  | showing =>
    obtain ⟨ws, hws⟩ := snapshot_isSome hi.config
    have hstep := loopStep_show (s := setSchedule xs s.env s) hi.config hl hws
    exact ⟨_, (step_of_loop hn).trans hstep, .inl ⟨ws, rfl⟩⟩
  | consuming =>
    obtain ⟨hs, -⟩ | ⟨ps, r, rest, hq, hr, hle⟩ := h
    · cases hl.symm.trans hs
    · cases ps with
      | nil =>
        obtain ⟨t, ht, -, hloop, hdisplay, -⟩ := step_consumes hi hn hl hq
        rw [List.length_nil] at hle
        exact ⟨t, ht, .inr ⟨hdisplay, .inl ⟨by simpa [hr] using hloop, by omega⟩⟩⟩
      | cons p ps =>
        obtain ⟨t, ht, hrxq, -, hdisplay, -⟩ := step_consumes hi hn hl hq
        rw [List.length_cons] at hle
        exact ⟨t, ht, .inr ⟨hdisplay, .inr ⟨ps, r, rest, hrxq, hr, by omega⟩⟩⟩

/-- A session's external turn takes no step from the loop and leaves the queued bytes where they are. -/
theorem step_external_showsWithin {s : State} {x : Turn} {xs : List Turn} {n : Nat} (hi : Inv s)
    (hin : s.inputs = x :: xs) (hx : x ≠ .loop) (hsession : sessionTurn s.cfg x = true)
    (h : ShowsWithin n s) : ∃ t, step s = .next t ∧ t.display = s.display ∧ ShowsWithin n t := by
  obtain ⟨i, hturn⟩ := Option.ne_none_iff_exists'.mp (mt turnInstr_eq_none.mp hx)
  obtain ⟨q, out, hexec⟩ :=
    exec_sessionTurn (s := setSchedule xs s.env s) hi.config hsession hturn
  refine ⟨_, (step_of_turn (nextTurn_of_cons hin) hturn).trans hexec, rfl, ?_⟩
  obtain hs | ⟨ps, r, rest, hq, hr, hle⟩ := h
  · exact .inl hs
  · exact .inr ⟨ps, r, rest ++ q, by simp [hq], hr, hle⟩

/-- A session whose turns give the loop the steps it needs shows on one of them. -/
theorem sessionInv_run_shows {s : State} {turns : List Turn} (h : SessionInv s)
    (hin : s.inputs = turns) (hshows : ShowsWithin (turns.count .loop) s) :
    ∃ t new, runSteps turns.length s = .next t ∧ new ≠ [] ∧ t.display = s.display ++ new := by
  induction turns generalizing s with
  | nil => obtain ⟨-, hle⟩ | ⟨ps, -, -, -, -, hle⟩ := hshows <;> simp at hle
  | cons x xs ih =>
    obtain ⟨u, hu, hsession, hinputs, -⟩ := sessionInv_step h hin
    rw [List.length_cons, runSteps_succ, hu, andThen_next]
    by_cases hx : x = .loop
    · subst hx
      rw [List.count_cons_self] at hshows
      obtain ⟨u', hu', hcases⟩ := step_loop_showsWithin h.inv hin hshows
      obtain rfl : u = u' := by simpa [hu] using hu'
      obtain ⟨ws, hws⟩ | ⟨hdisplay, hwithin⟩ := hcases
      · obtain ⟨t, ht, -, -, -, new, hnew⟩ := sessionInv_run hsession hinputs
        exact ⟨t, [ws] ++ new, ht, by simp, by simp [hnew, hws]⟩
      · exact hdisplay ▸ ih hsession hinputs hwithin
    · rw [List.count_cons_of_ne hx] at hshows
      obtain ⟨u', hu', hdisplay, hwithin⟩ :=
        step_external_showsWithin h.inv hin hx (h.turns x (by simp [hin])) hshows
      obtain rfl : u = u' := by simpa [hu] using hu'
      exact hdisplay ▸ ih hsession hinputs hwithin

/-- Settles O38. -/
theorem showHappensWhenAResyncIsQueued : Obligations.ShowHappensWhenAResyncIsQueued :=
  fun _ ps rest r hi hq hr hturns hcount =>
    sessionInv_run_shows ⟨hi, hturns⟩ rfl (.inr ⟨ps, r, rest, hq, hr, hcount⟩)

end Sys2Proof.Machine

/-! PROOF. What stops an operation (60_exceptions R208): a configuration with `C = 0` everywhere; under a
valid configuration a read of an unwritten `PREV`, and the refusals of each operation. -/

namespace Sys2Proof.Machine

/-! ### No step stops (60_exceptions R200) -/

/-- Settles O52. -/
theorem noStepStops : Obligations.NoStepStops :=
  fun _ hi hx => step_completes hi hx

/-! ### Refused configurations (60_exceptions R208 (a); log 14) -/

theorem requireConfig_chipCount_zero {c : Config} (h : c.chipCount = 0) (o : Result) :
    requireConfig c o = .refused .chipCountZero := by
  simp [requireConfig, configRefusal, h]

theorem requireConfig_wrong_length {c : Config} (h : 1 ≤ c.chipCount)
    (hl : c.bufferInit.length ≠ c.channels) (o : Result) :
    requireConfig c o = .refused .bufferInitLength := by
  simp [requireConfig, configRefusal, Nat.one_le_iff_ne_zero.mp h, hl]

/-- Every operation checks a configuration with the state's `C`; RESET's has its own `BUFFER_INIT`. -/
theorem exec_checks_config (i : Instr) (s : State) :
    ∃ c o, exec i s = requireConfig c o ∧ c.chipCount = s.cfg.chipCount := by
  cases i <;> exact ⟨_, _, rfl, rfl⟩

theorem exec_chipCount_zero {s : State} (h : s.cfg.chipCount = 0) (i : Instr) :
    exec i s = .refused .chipCountZero := by
  obtain ⟨c, o, hexec, hchips⟩ := exec_checks_config i s
  rw [hexec, requireConfig_chipCount_zero (hchips.trans h)]

/-- The agent whose turn it is meets the same refusal. -/
theorem step_chipCount_zero {s : State} (h : s.cfg.chipCount = 0) :
    step s = .refused .chipCountZero := by
  have h' : (nextTurn s).2.cfg.chipCount = 0 := by rw [nextTurn_cfg, h]
  unfold step
  split
  · rw [← requireConfig_loopStep, requireConfig_chipCount_zero h']
  · exact exec_chipCount_zero h' _

/-! ### Faults (60_exceptions R208 (c)) -/

/-- A payload byte at phase 1 to 3 in the gate reads `PREV`. -/
theorem consume_prev_unwritten {b : Byte} {s : State} (hc : s.cfg.Valid) (hb : isMarker b = false)
    (hg : s.ci < s.cfg.channels) (hp : phase s ≠ .p0) (hprev : s.prev = none) :
    consume b s = .fault .prevUnwritten := by
  rw [consume_complete hc hb hg hp, completeChannel_fault hprev, mapNext_fault]

/-- A decoder operation faults only where its `CONSUME` does. -/
theorem exec_received_eq_fault {i : Instr} {b : Byte} {s : State} {f : Fault}
    (hi : receivedByte? i = some b) (h : exec i s = .fault f) : consume b s = .fault f := by
  rw [exec_eq_consume hi] at h
  exact (requireRow_eq_fault (requireConfig_eq_fault h).2).2

/-- Only the operations that complete a channel can fault, and ITERATION, whose bytes do. -/
theorem exec_eq_fault_operation {i : Instr} {s : State} {f : Fault} (h : exec i s = .fault f) :
    i = .iteration ∨ ∃ b, i = .consumeP1 b ∨ i = .consumeP2 b ∨ i = .consumeP3 b := by
  cases i with
  | iteration => exact .inl rfl
  | consumeP1 b => exact .inr ⟨b, .inl rfl⟩
  | consumeP2 b => exact .inr ⟨b, .inr (.inl rfl)⟩
  | consumeP3 b => exact .inr ⟨b, .inr (.inr rfl)⟩
  | consumeResync b => cases (requireRow_eq_fault (requireConfig_eq_fault h).2).2
  | consumeP0 b => cases (requireRow_eq_fault (requireConfig_eq_fault h).2).2
  | consumeDrop b => cases (requireRow_eq_fault (requireConfig_eq_fault h).2).2
  | encodeFrame v =>
    obtain ⟨-, h⟩ := requireConfig_eq_fault h
    split at h <;> cases h
  | showBuffer =>
    obtain ⟨hc, h⟩ := requireConfig_eq_fault h
    exact absurd h (presentBuffer_ne_fault hc)
  | envRx b => cases (requireConfig_eq_fault h).2
  | reset init => cases (requireConfig_eq_fault h).2

/-- On a state of the invariant `CONSUME` and ITERATION complete, so nothing faults (10_state R36). -/
theorem exec_ne_fault_of_inv {s : State} (hi : Inv s) (i : Instr) (f : Fault) :
    exec i s ≠ .fault f := by
  intro h
  have hconsume (b : Byte) : consume b s ≠ .fault f := by
    obtain ⟨t, ht⟩ := consume_completes hi b
    simp [ht]
  obtain rfl | ⟨b, rfl | rfl | rfl⟩ := exec_eq_fault_operation h
  · obtain ⟨_, _, _, _, -, -, -, -, hnext⟩ := iterationConsumesThenShows s hi
    cases hnext.symm.trans h
  · exact hconsume b (exec_received_eq_fault rfl h)
  · exact hconsume b (exec_received_eq_fault rfl h)
  · exact hconsume b (exec_received_eq_fault rfl h)

/-- Settles O26. -/
theorem modelLevelOutcomes : Obligations.ModelLevelOutcomes := by
  refine ⟨fun s i h => exec_chipCount_zero h i, fun s h => step_chipCount_zero h,
    fun s v hc hv => execEncodeFrame_wrong_length hc hv, fun s b hc hb hg hbi hprev => ?_,
    fun s i hi => exec_ne_fault_of_inv hi i _⟩
  have hp : phase s ≠ .p0 := mt phaseOf_eq_p0.mp hbi
  exact (exec_decodeByte b s).trans (consume_prev_unwritten hc hb hg hp hprev)

/-! ### Refusals under a valid configuration (40_encoder R103; logs 6, 14) -/

/-- A sequence is refused in its first part, or in its second after the first completed. -/
theorem andThen_eq_refused {o : Result} {k : State → Result} {r : Refusal}
    (h : andThen o k = .refused r) : o = .refused r ∨ ∃ s, o = .next s ∧ k s = .refused r := by
  cases o with
  | next s => exact .inr ⟨s, rfl, h⟩
  | fault f => cases h
  | refused r' => exact .inl h

theorem mapNext_eq_refused {o : Result} {g : State → State} {r : Refusal}
    (h : mapNext o g = .refused r) : o = .refused r := by
  obtain h | ⟨s, -, h⟩ := andThen_eq_refused h
  · exact h
  · cases h

theorem completeChannel_ne_refused (g : Byte → Byte) (s : State) (r : Refusal) :
    completeChannel g s ≠ .refused r := by
  unfold completeChannel
  split
  · nofun
  · split <;> nofun

/-- None of the paths of `CONSUME` ends in a refusal. -/
theorem consume_ne_refused {s : State} (hc : s.cfg.Valid) (b : Byte) (r : Refusal) :
    consume b s ≠ .refused r := by
  intro h
  cases hb : isMarker b with
  | true => rw [consume_marker hc hb] at h; cases h
  | false =>
    by_cases hg : s.ci < s.cfg.channels
    · by_cases hp : phase s = .p0
      · rw [consume_phase0 hc hb hg hp] at h; cases h
      · rw [consume_complete hc hb hg hp] at h
        exact completeChannel_ne_refused _ s r (mapNext_eq_refused h)
    · rw [consume_closed hc hb (Nat.le_of_not_lt hg)] at h; cases h

theorem consumePhase_ne_refused {s : State} (hc : s.cfg.Valid) (q : List Byte) (r : Refusal) :
    consumePhase q s ≠ .refused r := by
  induction q generalizing s with
  | nil => nofun
  | cons b rest ih =>
    intro h
    obtain h | ⟨u, hu, h⟩ := andThen_eq_refused h
    · exact consume_ne_refused (s := setRxq rest s) hc b r h
    · have hcfg : u.cfg = s.cfg := (consume_frame hu).1
      split at h
      · cases h
      · exact ih (hcfg ▸ hc) h

theorem presentBuffer_ne_refused (s : State) (r : Refusal) : presentBuffer s ≠ .refused r := by
  unfold presentBuffer
  split <;> nofun

theorem execIteration_ne_refused {s : State} (hc : s.cfg.Valid) (r : Refusal) :
    execIteration s ≠ .refused r := by
  rw [execIteration, requireConfig_of_valid hc]
  intro h
  obtain h | ⟨u, -, h⟩ := andThen_eq_refused h
  · exact consumePhase_ne_refused (s := setLoop .consuming s) hc s.rxq r h
  · exact presentBuffer_ne_refused _ r h

/-- RESET refuses an operand that is no `BUFFER_INIT` (00_scope R7; log 14). -/
theorem execReset_wrong_length {init : List Byte} {s : State} (hc : s.cfg.Valid)
    (hl : init.length ≠ s.cfg.channels) : execReset init s = .refused .bufferInitLength :=
  requireConfig_wrong_length (c := { s.cfg with bufferInit := init }) hc.1 hl _

/-- A path of `CONSUME` that its byte does not select is refused: its row does not hold (log 6). -/
theorem exec_of_not_selected {i : Instr} {b : Byte} {s : State} (hc : s.cfg.Valid)
    (hi : receivedByte? i = some b) (hsel : i ≠ decodeByte (selector s) b) :
    exec i s = .refused .notSelected := by
  have hrow : (i.wf s.cfg && rowCondition (selector s) i) = false := by
    refine Bool.eq_false_iff.mpr fun h => hsel ?_
    obtain ⟨hwf, hcond⟩ := Bool.and_eq_true_iff.mp h
    exact (decodeByte_of_row hi hwf hcond).symm
  rw [exec_eq_consume hi, requireConfig_of_valid hc, hrow, requireRow_false]

/-- The six operations of a byte, as a list. -/
theorem mem_consumeOperations {i : Instr} {b : Byte} :
    i ∈ [Instr.consumeResync b, .consumeP0 b, .consumeP1 b, .consumeP2 b, .consumeP3 b,
      .consumeDrop b] ↔ receivedByte? i = some b := by
  cases i <;> simp [receivedByte?]

/-- All that an operation can be refused for under a valid configuration. -/
theorem exec_eq_refused {i : Instr} {s : State} {r : Refusal} (hc : s.cfg.Valid)
    (h : exec i s = .refused r) :
    (r = .frameLength ∧ ∃ v, i = .encodeFrame v ∧ v.length ≠ s.cfg.channels) ∨
    (r = .bufferInitLength ∧ ∃ init, i = .reset init ∧ init.length ≠ s.cfg.channels) ∨
    (r = .notSelected ∧ ∃ b, i ≠ decodeByte (selector s) b ∧ receivedByte? i = some b) := by
  have eq_of {r' : Refusal} (h' : exec i s = .refused r') : r = r' :=
    Host.Outcome.refused.inj (h.symm.trans h')
  have not_next {t : State} (h' : exec i s = .next t) : False := nomatch h'.symm.trans h
  cases hi : receivedByte? i with
  | some b =>
    have hsel : i ≠ decodeByte (selector s) b := fun he =>
      consume_ne_refused hc b r ((exec_of_selected he.symm).symm.trans h)
    exact .inr (.inr ⟨eq_of (exec_of_not_selected hc hi hsel), b, hsel, rfl⟩)
  | none =>
    cases i with
    | encodeFrame v =>
      have hv : v.length ≠ s.cfg.channels := fun hv => not_next (execEncodeFrame_next hc hv)
      exact .inl ⟨eq_of (execEncodeFrame_wrong_length hc hv), v, rfl, hv⟩
    | reset init =>
      have hl : init.length ≠ s.cfg.channels := fun hl => not_next (execReset_next hc hl)
      exact .inr (.inl ⟨eq_of (execReset_wrong_length hc hl), init, rfl, hl⟩)
    | iteration => exact absurd h (execIteration_ne_refused hc r)
    | showBuffer =>
      obtain ⟨ws, hws⟩ := snapshot_isSome hc
      exact (not_next (execShowBuffer_next hc hws)).elim
    | envRx b => exact (not_next (execEnvRx_next hc b)).elim
    | _ => cases hi

/-- Settles O28: the inversions of a fault and of a refusal, and what each refusal's case answers. -/
theorem stopsUnderAValidConfiguration : Obligations.StopsUnderAValidConfiguration := by
  refine ⟨fun s i f _ h => ?_, fun s i r hc => ?_⟩
  · obtain ⟨hf, hprev⟩ := exec_eq_fault h
    exact ⟨hf, hprev, exec_eq_fault_operation h⟩
  · simp only [mem_consumeOperations]
    refine ⟨exec_eq_refused hc, ?_⟩
    rintro (⟨rfl, v, rfl, hv⟩ | ⟨rfl, init, rfl, hl⟩ | ⟨rfl, b, hsel, hi⟩)
    · exact execEncodeFrame_wrong_length hc hv
    · exact execReset_wrong_length hc hl
    · exact exec_of_not_selected hc hi hsel

end Sys2Proof.Machine

/-! PROOF. A frame received whole through the loop to the display: the first iteration ends on the resync
byte and shows the old buffer, the second consumes the rest of the frame and shows its values. Then RESET
by the elements it sets (70_reset R230, R240; 42_commit R172, R177). -/

namespace Sys2Proof.Machine

/-! ### A frame through two iterations (70_reset R240) -/

/-- Values that the cells of the buffer read as, one by one, are its snapshot. -/
theorem snapshot_of_cells {s : State} {v : List Byte} (hc : s.cfg.Valid)
    (hv : v.length = s.cfg.channels) (h : ∀ j, j < s.cfg.channels → memRead s.cfg s.buf j = v[j]?) :
    snapshot s = some v := by
  obtain ⟨ws, hws⟩ := snapshot_isSome hc
  refine hws.trans (congrArg some (snapshot_eq hws fun i => ?_))
  by_cases hi : i < s.cfg.channels
  · exact (h i hi).symm
  · rw [memRead_of_ge (Nat.not_lt.mp hi), List.getElem?_eq_none (hv.trans_le (Nat.not_lt.mp hi))]

/-- `s` after the iteration that the resync byte `r` ended: `ws` is shown and `rest` is still queued. -/
def shownAtResync (ws : List Byte) (r : Byte) (rest : List Byte) (s : State) : State :=
  emitShow ws { s with
    loop := .showing, rxq := rest, ci := 0, bi := 1, prev := some r, commit := true }

/-- An iteration whose queue starts with a resync byte consumes that byte alone and shows the buffer as it
stood (42_commit R172, R177). -/
theorem execIteration_resync_head {s : State} {r : Byte} {rest ws : List Byte} (hc : s.cfg.Valid)
    (hq : s.rxq = r :: rest) (hr : isMarker r = true) (hws : snapshot s = some ws) :
    execIteration s = .next (shownAtResync ws r rest s) := by
  have hphase := consumePhase_resync (ps := []) (s := setLoop .consuming s) rest hc nofun hr rfl
  rw [List.nil_append, ← hq] at hphase
  exact execIteration_next hc hphase hws

/-- The SHOW in between leaves the decoder alone: the bytes after the resync byte are consumed as if they
followed it directly. -/
theorem consumeAll_shownAtResync {s : State} {r : Byte} (ws ps : List Byte) (hc : s.cfg.Valid)
    (hr : isMarker r = true) :
    consumeAll ps (setRxq [] (setLoop .consuming (shownAtResync ws r ps s))) =
      consumeAll (r :: ps) (emitShow ws (setRxq [] (setLoop .consuming s))) := by
  rw [consumeAll, consume_marker (s := emitShow ws (setRxq [] (setLoop .consuming s))) hc hr,
    andThen_next]
  rfl

/-- An iteration whose queue holds payload bytes only consumes them all, then shows. -/
theorem execIteration_payloads {s t : State} {ws : List Byte} (hc : s.cfg.Valid)
    (hq : ∀ b ∈ s.rxq, isMarker b = false)
    (ht : consumeAll s.rxq (setRxq [] (setLoop .consuming s)) = .next t)
    (hws : snapshot t = some ws) :
    execIteration s = .next (emitShow ws (setLoop .showing t)) :=
  execIteration_next hc ((consumePhase_payloads hq (setLoop .consuming s) rfl).trans ht) hws

/-- Settles O39: the first iteration takes the frame's resync byte, and the second goes on as the decoding
of the whole frame does (`encodedFrameDecodesToItself`). -/
theorem receivedFrameReachesTheDisplay : Obligations.ReceivedFrameReachesTheDisplay := by
  intro s v hi hv hq
  have hc := hi.config
  obtain ⟨r, ps, hframe, -, hr, hps⟩ := frameOf_eq_cons hc.1 hv
  obtain ⟨ws, hws⟩ := snapshot_isSome hc
  have hfirst := execIteration_resync_head hc (hq.trans hframe) hr hws
  obtain ⟨m, hall, -, hcells⟩ :=
    encodedFrameDecodesToItself (emitShow ws (setRxq [] (setLoop .consuming s))) v hc hv
  rw [hframe, ← consumeAll_shownAtResync ws ps hc hr] at hall
  have hsecond := execIteration_payloads (s := shownAtResync ws r ps s) hc hps hall
    (snapshot_of_cells hc hv hcells)
  exact ⟨_, _, ws, hws, hfirst, rfl, hsecond, List.append_assoc s.display [ws] [v], rfl, rfl, hcells⟩

/-! ### RESET (70_reset R230) -/

/-- A buffer that lists no cell reads as `BUFFER_INIT`. -/
theorem memRead_nil {c : Config} {i : Nat} (h : i < c.channels) :
    memRead c [] i = c.bufferInit[i]? := by
  simp [memRead, h, cellLookup, unlistedCell]

/-- RESET runs where its operand makes the configuration valid, whatever `BUFFER_INIT` was before. -/
theorem execReset_of_valid {init : List Byte} {s : State}
    (hc : ({ s.cfg with bufferInit := init } : Config).Valid) :
    execReset init s = .next (resetState init s) :=
  requireConfig_of_valid hc _

/-- Settles O41: `FULL` is 0 as `CI` is 0 and `N` is not. -/
theorem resetSetsEveryElement : Obligations.ResetSetsEveryElement := by
  intro s init h1 hl
  have hc : ({ s.cfg with bufferInit := init } : Config).Valid := ⟨h1, hl⟩
  have hfull : isFull (resetState init s) = false :=
    Bool.eq_false_iff.mpr fun h => (channels_pos hc).ne (isFull_eq_true.mp h)
  exact ⟨_, execReset_of_valid hc, rfl, rfl, rfl, rfl, rfl, fun _ hi => memRead_nil hi, hfull, rfl,
    rfl, rfl, rfl⟩

end Sys2Proof.Machine

/-! PROOF. The model's own refusals (logs 6, 14), RESET as a whole state, and the invariant of the state
after reset (70_reset R230, R233). -/

namespace Sys2Proof.Machine

/-- Settles O12: an operation with a received byte is one of the rows, and not the byte's own. -/
theorem unselectedPathIsRefused : Obligations.UnselectedPathIsRefused :=
  fun _ _ _ hc hmem hsel => exec_of_not_selected hc (mem_consumeOperations.mp hmem) hsel

/-- Every operation but RESET checks the state's own configuration first. -/
theorem exec_checks_state_config {i : Instr} (hi : ∀ init, i ≠ .reset init) (s : State) :
    ∃ o, exec i s = requireConfig s.cfg o := by
  cases i with
  | reset init => exact absurd rfl (hi init)
  | _ => exact ⟨_, rfl⟩

/-- Settles O27: the check comes before anything the operation does. -/
theorem wrongBufferInitIsRefused : Obligations.WrongBufferInitIsRefused := by
  intro s i hchips hl hi
  obtain ⟨o, hexec⟩ := exec_checks_state_config hi s
  rw [hexec, requireConfig_wrong_length hchips hl]

/-- Settles O42: RESET checks the configuration that its operand makes, not the state's own. -/
theorem resetIsTheBootState : Obligations.ResetIsTheBootState :=
  ⟨fun s init hchips hl =>
      execReset_of_valid (show Config.Valid { s.cfg with bufferInit := init } from ⟨hchips, hl⟩),
    fun s init hchips hl =>
      requireConfig_wrong_length (c := { s.cfg with bufferInit := init }) hchips hl _⟩

/-- The model's own parameters are valid, whatever the three open bytes are (logs 2, 3). -/
theorem standard_valid : Config.standard.Valid := ⟨le_rfl, rfl⟩

/-- Settles O50. -/
theorem resetMeetsTheInvariant : Obligations.ResetMeetsTheInvariant :=
  ⟨inv_boot standard_valid, fun _ hc => inv_boot hc⟩

end Sys2Proof.Machine
